-- ==== Sys2Proof/Word.lean ====
section
/-! DEFINITION. The bit vectors of the machine: the 32-bit cell word, the 12-bit operand field and
the 4-bit opcode of `00_scope.md` rule R7. Addresses are natural numbers (`10_state.md` R13: an
instruction pointer is an integer in `[0, L)` and has no bit width). -/

namespace Sys2Proof

/-- A memory cell's contents, an unsigned 32-bit integer (`10_state.md` R11). -/
abbrev Word := BitVec 32

/-- A 12-bit operand field, always read as an unsigned number (`30_encoding.md` R59). -/
abbrev Field := BitVec 12

/-- The 4-bit opcode field, 0 to 15 (`30_encoding.md` R51). -/
abbrev Opcode := BitVec 4

end Sys2Proof
end

