-- ==== Sys2Proof/Syntax.lean ====
section
/-! DEFINITION. The instruction syntax: one constructor of `Instr` per row of
`spec/opcode_table.json`, the decoded record of `30_encoding.md` R52, and the assembled program
("warrior") of the glossary. -/

namespace Sys2Proof

/-- The four values of a mode field (`30_encoding.md` R58). Mode 3 is `invalid`: the word decodes,
the operand does not. -/
inductive Mode where
  | immediate
  | relative
  | indirect
  | invalid
deriving DecidableEq, Repr

/-- One operand of an instruction word: a mode and its 12-bit field. -/
structure Operand where
  mode  : Mode
  field : Field
deriving DecidableEq, Repr

/-- The record `Decode` returns (`30_encoding.md` R52): the opcode, operand A (`mode_a`, `field_a`)
and operand B (`mode_b`, `field_b`). -/
structure Fields where
  opcode : Opcode
  a      : Operand
  b      : Operand
deriving DecidableEq, Repr

/-- The instructions. All nine rows share the one format, so each carries both operands, whether or
not its semantics uses them (`30_encoding.md` R60). -/
inductive Instr where
  /-- Opcode 0, `41_dat.md` R110. -/
  | dat (a b : Operand)
  /-- Opcode 1, `42_mov_add_sub.md` R115. -/
  | mov (a b : Operand)
  /-- Opcode 2, `42_mov_add_sub.md` R116. -/
  | add (a b : Operand)
  /-- Opcode 3, `42_mov_add_sub.md` R117. -/
  | sub (a b : Operand)
  /-- Opcode 4, `43_jmp_jmz_djz_cmp.md` R130. -/
  | jmp (a b : Operand)
  /-- Opcode 5, `43_jmp_jmz_djz_cmp.md` R131. -/
  | jmz (a b : Operand)
  /-- Opcode 6, `43_jmp_jmz_djz_cmp.md` R132. -/
  | djz (a b : Operand)
  /-- Opcode 7, `43_jmp_jmz_djz_cmp.md` R133. -/
  | cmp (a b : Operand)
  /-- Opcodes 8 to 15, `30_encoding.md` R57: the opcode itself is kept, since `last` reports it. -/
  | illegal (opcode : Opcode) (a b : Operand)
deriving DecidableEq, Repr

/-- A warrior: "an assembled program (word sequence + entry offset) prior to loading"
(`00_scope.md` section 6). -/
structure Warrior where
  offset : Nat
  words  : List Word
deriving DecidableEq, Repr

end Sys2Proof
end

