-- ==== Sys2Proof/WellFormed.lean ====
section
/-! DEFINITION. When a term of `Instr` stands for an instruction word. The types already bound every
mode and field; the one check left is that `illegal` carries an opcode of its own row. -/

namespace Sys2Proof

/-- `illegal` names opcodes 8 to 15 only (`30_encoding.md` R57); opcodes 0 to 7 have constructors of
their own (R56). -/
def Instr.wellFormed (i : Instr) : Bool :=
  match i with
  | .dat _ _ => true
  | .mov _ _ => true
  | .add _ _ => true
  | .sub _ _ => true
  | .jmp _ _ => true
  | .jmz _ _ => true
  | .djz _ _ => true
  | .cmp _ _ => true
  | .illegal op _ _ => decide (8 ≤ op.toNat)

/-- The check as a proposition. -/
abbrev Instr.WellFormed (i : Instr) : Prop := i.wellFormed = true

end Sys2Proof
end

