-- ==== Sys2Proof/Decode.lean ====
section
/-! DEFINITION. The instruction word codec (`30_encoding.md` sections 1 to 4): `Decode`, total on
every word; the layout-only encoder of a well-formed instruction; the toolchain's `Encode` with its
`EncodingError`; the validity predicate. -/

namespace Sys2Proof

/-- The mode a 2-bit field spells (`30_encoding.md` R58). -/
def modeOfBits (m : BitVec 2) : Mode :=
  if m = 0#2 then .immediate
  else if m = 1#2 then .relative
  else if m = 2#2 then .indirect
  else .invalid

/-- The 2-bit field that spells a mode (`30_encoding.md` R58). -/
def modeBits : Mode → BitVec 2
  | .immediate => 0#2
  | .relative => 1#2
  | .indirect => 2#2
  | .invalid => 3#2

/-- `Decode(w)`: "pure bit extraction, never fails" (`30_encoding.md` R52), by the layout of R51:
opcode 31:28, mode_a 27:26, mode_b 25:24, field_a 23:12, field_b 11:0. -/
def decodeFields (w : Word) : Fields where
  opcode := w.extractLsb' 28 4
  a := { mode := modeOfBits (w.extractLsb' 26 2), field := w.extractLsb' 12 12 }
  b := { mode := modeOfBits (w.extractLsb' 24 2), field := w.extractLsb' 0 12 }

/-- The instruction an opcode selects (`30_encoding.md` R56, R57): no other bit takes part. -/
def instrOfFields (f : Fields) : Instr :=
  match f.opcode.toNat with
  | 0 => .dat f.a f.b
  | 1 => .mov f.a f.b
  | 2 => .add f.a f.b
  | 3 => .sub f.a f.b
  | 4 => .jmp f.a f.b
  | 5 => .jmz f.a f.b
  | 6 => .djz f.a f.b
  | 7 => .cmp f.a f.b
  | _ => .illegal f.opcode f.a f.b

/-- The instruction a word stands for. Every word has one: there is nothing to reject
(`30_encoding.md` R50, R52); opcodes 8 to 15 are named `illegal`. -/
def decode (w : Word) : Instr := instrOfFields (decodeFields w)

/-- The five fields of an instruction (`30_encoding.md` R56). -/
def instrFields (i : Instr) : Fields :=
  match i with
  | .dat a b => ⟨0#4, a, b⟩
  | .mov a b => ⟨1#4, a, b⟩
  | .add a b => ⟨2#4, a, b⟩
  | .sub a b => ⟨3#4, a, b⟩
  | .jmp a b => ⟨4#4, a, b⟩
  | .jmz a b => ⟨5#4, a, b⟩
  | .djz a b => ⟨6#4, a, b⟩
  | .cmp a b => ⟨7#4, a, b⟩
  | .illegal op a b => ⟨op, a, b⟩

/-- The layout: `opcode ++ mode_a ++ mode_b ++ field_a ++ field_b`, both modes before both fields
(`30_encoding.md` R51, R53). -/
def encodeFields (f : Fields) : Word :=
  f.opcode ++ modeBits f.a.mode ++ modeBits f.b.mode ++ f.a.field ++ f.b.field

/-- The word of a well-formed instruction, illegal opcodes included: the inverse of `decode`. The
toolchain's `Encode`, which refuses opcodes above 7, is `encodeArgs`. -/
def encode (i : Instr) : Word := encodeFields (instrFields i)

/-- Why `Encode` fails (`30_encoding.md` R53): "any field exceeds its bit width or opcode > 7", or
an argument is negative (spec decision D7). Which argument is at fault is kept for diagnostics. -/
inductive EncodingError where
  | opcode
  | modeA
  | fieldA
  | modeB
  | fieldB
deriving DecidableEq, Repr

/-- `Encode(opcode, mode_a, field_a, mode_b, field_b)` on arbitrary integers, in the source's
argument order (`30_encoding.md` R53). Mode 3 fits its two bits and packs (spec decision D7). -/
def encodeArgs (opcode modeA fieldA modeB fieldB : Int) : Except EncodingError Word :=
  if opcode < 0 ∨ 7 < opcode then .error .opcode
  else if modeA < 0 ∨ 3 < modeA then .error .modeA
  else if fieldA < 0 ∨ 4095 < fieldA then .error .fieldA
  else if modeB < 0 ∨ 3 < modeB then .error .modeB
  else if fieldB < 0 ∨ 4095 < fieldB then .error .fieldB
  else .ok (BitVec.ofInt 32
    (opcode * 2 ^ 28 + modeA * 2 ^ 26 + modeB * 2 ^ 24 + fieldA * 2 ^ 12 + fieldB))

/-- `IsValid(d)` (`30_encoding.md` R54): `opcode <= 7`, `mode_a <= 2`, `mode_b <= 2`. The transition
does not call it. -/
def isValid (f : Fields) : Bool :=
  decide (f.opcode.toNat ≤ 7) && (f.a.mode != .invalid) && (f.b.mode != .invalid)

/-- What the decoder reads from an instruction of `nbits` bits numbered as the opcode table numbers
them. One instruction is one 32-bit word and a cell has no byte order (`20_memory.md` R34), so the
bits are the word; a wider instruction does not exist. -/
def decodeTableWord (nbits w : Nat) : Option Instr :=
  if nbits ≤ 32 then some (decode (BitVec.ofNat 32 (w % 2 ^ nbits))) else none

end Sys2Proof
end

