-- ==== Sys2Proof/Config.lean ====
section
/-! DEFINITION. What the spec leaves to the caller or to an implementation and the model fixes for
`State.reset`. No value of the spec is left free, so there is no opaque constant here. -/

namespace Sys2Proof

/-- The core length of `State.reset`: the source's example 64 × 16 (`00_scope.md` R6; spec decision
D1). DESIGN CHOICE, log entry 1: every other length is reached through `State.resetOf`. -/
def Config.coreLen : Nat := 1024

/-- What a cell holds that nothing has written since reset: `0x00000000` (`10_state.md` R24; spec
decision D2, log entry 4). -/
def Config.coreFill : Word := 0x00000000#32

end Sys2Proof
end

