-- ==== Sys2Proof/Machine/State.lean ====
section
/-! DEFINITION. The machine's state as plain data (`10_state.md` R10), its reset, and the reasons a
step can stop. -/

namespace Sys2Proof.Machine

/-- The two programs, "an explicit `active: ProgramId` enum (A|B)" (`10_state.md` R16). -/
inductive ProgramId where
  | A
  | B
deriving DecidableEq, Repr

/-- One stored cell of the core: its address and its 32-bit word. A cell is atomic and has no bytes
(`20_memory.md` R34; log entry 4). -/
abbrev CoreCell := Nat × Word

/-- The core memory `M`, as the list of its cells that differ from `Config.coreFill`, in rising
address order (`Memory.wf`). -/
abbrev Memory := List CoreCell

/-- What a tick decodes and resolves (`10_state.md` R20): the executing program `p`, its address
`ip0`, the fetched word `w`, its fields, and the resolved values and addresses. -/
structure LastTick where
  p     : ProgramId
  ip0   : Nat
  w     : Word
  ins   : Fields
  a     : Option Word
  addrA : Option Nat
  b     : Option Word
  addrB : Option Nat
deriving DecidableEq, Repr

/-- The machine's state. The first eight fields are the elements of `10_state.md` R10; the last four
are the model's own: the parameter `L` of `00_scope.md` R6 (log entry 1), and what the interface rules
R22 and R189 need to say which command is legal when (log entry 3). -/
structure State where
  /-- `M`: the core memory (R11). -/
  mem      : Memory
  /-- `ip[A]` (R13). -/
  ipA      : Nat
  /-- `ip[B]` (R13). -/
  ipB      : Nat
  /-- The program that executes at the next tick (R16). -/
  turn     : ProgramId
  /-- A violation has happened (R17). -/
  violated : Bool
  /-- The battle is over (R18). -/
  ended    : Bool
  /-- The program that did not violate (R19). -/
  winner   : Option ProgramId
  /-- What the most recent tick decoded and resolved, for the observer (R20). -/
  last     : Option LastTick
  /-- `L`, fixed at `Reset(L)` (`00_scope.md` R6). -/
  coreLen  : Nat
  /-- `LoadSetIP(A, _)` has been given since reset (R22, R24). -/
  ipASet   : Bool
  /-- `LoadSetIP(B, _)` has been given since reset (R22, R24). -/
  ipBSet   : Bool
  /-- The first `Update` has happened, which ends the loader's access (R22, `20_memory.md` R43). -/
  started  : Bool
deriving DecidableEq, Repr

/-- Why a step stops without a next state. Safe: the step stops and proves nothing about the machine. -/
inductive Fault where
  /-- Raised by `step` alone, when the active pointer names no cell of the core (`addr >= L`). The spec
  rules such states out (`10_state.md` R25(a)); safe (log entry 7). -/
  | outOfCore (addr : Nat)
deriving DecidableEq, Repr

/-- Why the interface has no step for a command. Safe: nothing happens. -/
inductive Refusal where
  /-- An instruction without a meaning; no arm of `exec` answers it. Safe. -/
  | notModelled (mnemonic : String)
  /-- Raised by `step`: `Update` before the loader has set both pointers (`70_reset_and_hazards.md`
  R189, spec decision D3). Safe. -/
  | pointersNotSet
  /-- Raised by the loader commands: given after the first `Update` (`70_reset_and_hazards.md` R189,
  spec decision D10). Safe. -/
  | loadAfterStart
  /-- Raised by the loader commands: the address is not in `[0, L)` (`10_state.md` R22). Safe. -/
  | addressOutsideCore (addr : Nat)
  /-- Raised by `Reset(L)` with `L = 0` (`00_scope.md` R6: `L >= 1`). Safe. -/
  | emptyCore
deriving DecidableEq, Repr

/-- The state after `Reset(L)` and before any loader command (`10_state.md` R24, `70_reset_and_hazards.md`
R180). The pointers have no value in the spec until `LoadSetIP`: 0 is a DESIGN CHOICE (log entry 2). -/
def State.resetOf (L : Nat) : State where
  mem := []
  ipA := 0
  ipB := 0
  turn := .A
  violated := false
  ended := false
  winner := none
  last := none
  coreLen := L
  ipASet := false
  ipBSet := false
  started := false

/-- The machine right after reset, for the core length of `Config.coreLen` (log entry 1). -/
def State.reset : State := State.resetOf Config.coreLen

end Sys2Proof.Machine
end

