-- ==== Sys2Proof/Machine/Flags.lean ====
section
/-! DEFINITION. The arithmetic law and the tests (`42_mov_add_sub.md` R118). The machine keeps no
condition codes (`10_state.md` R15): the tests below are computed and used within one tick. Operands
are read as unsigned integers, the result is computed exactly and reduced modulo 4096 at the end, and
it is a whole word with bits 31:12 zero (`20_memory.md` R32, spec decision D5). -/

namespace Sys2Proof.Machine

/-- `(a + b) mod 4096` (`42_mov_add_sub.md` R116). -/
def addMod (a b : Word) : Word := BitVec.ofNat 32 ((a.toNat + b.toNat) % 4096)

/-- `(b + (4096 - a)) mod 4096` with the floor modulus: B minus A (`42_mov_add_sub.md` R117). -/
def subMod (a b : Word) : Word :=
  BitVec.ofInt 32 (((b.toNat : Int) + (4096 - (a.toNat : Int))) % 4096)

/-- `(v - 1) mod 4096` (`43_jmp_jmz_djz_cmp.md` R132). -/
def decMod (v : Word) : Word := BitVec.ofInt 32 (((v.toNat : Int) - 1) % 4096)

/-- The zero test of `jmz` and `djz`, on all 32 bits (`42_mov_add_sub.md` R118). -/
def isZero (v : Word) : Bool := v == 0#32

/-- The inequality test of `cmp`, on all 32 bits (`42_mov_add_sub.md` R118). -/
def differ (a b : Word) : Bool := a != b

end Sys2Proof.Machine
end

