-- ==== Sys2Proof/Machine/Ops.lean ====
section
/-! DEFINITION. The operations the instructions share: address reduction, the memory primitives, the
pointers, taking a violation, and the end of a tick (`40_tick_and_operands.md` steps 4 to 7). -/

namespace Sys2Proof.Machine

/-! ### Address reduction -/

/-- `Fold(x) = (x mod 4096) mod L` with the floor modulus, for any integer `x` (`20_memory.md` R33). -/
def fold (L : Nat) (x : Int) : Nat := (x % 4096).toNat % L

/-- `Incr(ip0, delta) = Fold(ip0 + delta)` (`40_tick_and_operands.md` R94). -/
def incr (L : Nat) (ip0 : Nat) (delta : Int) : Nat := fold L ((ip0 : Int) + delta)

/-! ### Memory -/

/-- The canonical form: addresses strictly rising, no entry equal to the fill an unlisted cell reads. -/
abbrev Memory.wf (m : Memory) : Prop :=
  m.Pairwise (fun c d => c.1 < d.1) ∧ ∀ c ∈ m, c.2 ≠ Config.coreFill

/-- Every listed address is an address of a core of length `L` (`20_memory.md` R30). -/
abbrev Memory.inCore (m : Memory) (L : Nat) : Prop := ∀ c ∈ m, c.1 < L

/-- `MemRead(addr)` (`20_memory.md` R31). An unlisted cell holds `Config.coreFill`. -/
def Memory.read : Memory → Nat → Word
  | [], _ => Config.coreFill
  | (k, v) :: rest, addr => if addr = k then v else Memory.read rest addr

/-- The list without its entries for `addr`. -/
def Memory.erase : Memory → Nat → Memory
  | [], _ => []
  | (k, v) :: rest, addr =>
    if addr = k then Memory.erase rest addr else (k, v) :: Memory.erase rest addr

/-- The entry put before the first larger address. -/
def Memory.insert : Memory → Nat → Word → Memory
  | [], addr, x => [(addr, x)]
  | (k, v) :: rest, addr, x =>
    if addr < k then (addr, x) :: (k, v) :: rest else (k, v) :: Memory.insert rest addr x

/-- `MemWrite(addr, v)`: replaces all 32 bits of the cell (`20_memory.md` R31, R32). Writing the fill
removes the entry, so that equal memories are equal lists. -/
def Memory.write (m : Memory) (addr : Nat) (x : Word) : Memory :=
  if x = Config.coreFill then Memory.erase m addr else Memory.insert (Memory.erase m addr) addr x

/-! ### Pointers and turn -/

/-- `other(A) = B`, `other(B) = A` (`00_scope.md` section 5.2). -/
def other : ProgramId → ProgramId
  | .A => .B
  | .B => .A

/-- `ip[p]` (`10_state.md` R13). -/
def State.ip (s : State) (p : ProgramId) : Nat :=
  match p with
  | .A => s.ipA
  | .B => s.ipB

/-- `ip[p] <- addr`. -/
def State.setIp (s : State) (p : ProgramId) (addr : Nat) : State :=
  match p with
  | .A => { s with ipA := addr }
  | .B => { s with ipB := addr }

/-- `M[addr] <- x`. -/
def State.writeCell (s : State) (addr : Nat) (x : Word) : State :=
  { s with mem := Memory.write s.mem addr x }

/-- `last <- t` (`40_tick_and_operands.md` R83). -/
def State.setLast (s : State) (t : LastTick) : State := { s with last := some t }

/-- Step 7: `turn <- other(p)`, on every tick, the violating one included (`40_tick_and_operands.md`
R95, spec decision D4). -/
def State.flipTurn (s : State) (p : ProgramId) : State := { s with turn := other p }

/-! ### What a handler answers, and the violation

The violation is the machine's one exceptional event (`60_exceptions.md` R150). Taking it saves
nothing, changes no mode and goes to no handler (R154). There is no return from it: only `Reset` leaves
the ended state (R155), so no operation stands beside it for that. -/

/-- What a handler answers (`40_tick_and_operands.md` R97): it raises Violation with no write at all,
or it does at most one `MemWrite` and optionally sets the active pointer itself. -/
inductive HandlerResult where
  | violation
  | done (write : Option (Nat × Word)) (jump : Option Nat)
deriving DecidableEq, Repr

/-- `raise Violation`: `violated <- true` and nothing else (`40_tick_and_operands.md` R90, R91). -/
def State.raiseViolation (s : State) : State := { s with violated := true }

/-- Step 5, the end of the battle: the program that did not execute wins (`40_tick_and_operands.md` R92). -/
def State.endBattle (s : State) (p : ProgramId) : State :=
  { s with ended := true, winner := some (other p) }

/-- Taking a violation raised by program `p`: steps 4, 5 and 7, step 6 skipped (`60_exceptions.md` R154). -/
def State.takeViolation (s : State) (p : ProgramId) : State :=
  ((s.raiseViolation).endBattle p).flipTurn p

/-- The handler's at most one memory write. -/
def State.applyWrite (s : State) (write : Option (Nat × Word)) : State :=
  match write with
  | none => s
  | some (addr, x) => s.writeCell addr x

/-- The handler's own pointer write, `ip[p] <- target` with `jumped := true`. -/
def State.applyJump (s : State) (p : ProgramId) (jump : Option Nat) : State :=
  match jump with
  | none => s
  | some target => s.setIp p target

/-- Step 6: the default advance by 1, unless the handler jumped (`40_tick_and_operands.md` R93). -/
def State.advance (s : State) (p : ProgramId) (ip0 : Nat) (jump : Option Nat) : State :=
  match jump with
  | none => s.setIp p (incr s.coreLen ip0 1)
  | some _ => s

/-- Steps 5 to 7 after a handler that completed. Step 5 tests the flag itself, "if `violated` is now
true" (`40_tick_and_operands.md` R92, R97), though no reachable tick starts with it set (log entry 16). -/
def State.finishDone (s : State) (t : LastTick) (write : Option (Nat × Word)) (jump : Option Nat) :
    State :=
  let s1 := (s.applyWrite write).applyJump t.p jump
  if s1.violated = true then (s1.endBattle t.p).flipTurn t.p
  else (s1.advance t.p t.ip0 jump).flipTurn t.p

/-- The rest of a tick once its operands are resolved: `last` is written, the handler's answer takes
effect, and steps 5 to 7 follow (`40_tick_and_operands.md` R97). -/
def State.finishTick (s : State) (t : LastTick) (r : HandlerResult) : State :=
  let s0 := s.setLast t
  match r with
  | .violation => s0.takeViolation t.p
  | .done write jump => s0.finishDone t write jump

end Sys2Proof.Machine
end

