-- ==== Sys2Proof/Machine/Operands.lean ====
section
/-! DEFINITION. The operand resolver and steps 2 and 3 of the tick (`40_tick_and_operands.md` sections
1 and 2). -/

namespace Sys2Proof.Machine

/-- `Resolve`'s answer: an optional value and an optional address. -/
structure Resolved where
  value : Option Word
  addr  : Option Nat
deriving DecidableEq, Repr

/-- A field zero-extended to a word (`40_tick_and_operands.md` R85). -/
def fieldWord (f : Field) : Word := f.setWidth 32

/-- Relative's address, `Fold(ip0 + f)` (`40_tick_and_operands.md` R86). -/
def relativeAddr (L : Nat) (ip0 : Nat) (f : Field) : Nat := fold L ((ip0 : Int) + (f.toNat : Int))

/-- Indirect's address: with `t` Relative's address and `ptr` the whole word there, `Fold(t + ptr)`, so
the second displacement is relative to the pointer cell (`40_tick_and_operands.md` R87). -/
def indirectAddr (m : Memory) (L : Nat) (ip0 : Nat) (f : Field) : Nat :=
  fold L ((relativeAddr L ip0 f : Int) + ((m.read (relativeAddr L ip0 f)).toNat : Int))

/-- The address of an operand, if its mode gives one (`40_tick_and_operands.md` R85 to R88). -/
def operandAddr (m : Memory) (L : Nat) (ip0 : Nat) (o : Operand) : Option Nat :=
  match o.mode with
  | .immediate => none
  | .relative => some (relativeAddr L ip0 o.field)
  | .indirect => some (indirectAddr m L ip0 o.field)
  | .invalid => none

/-- The value of an operand, if its mode gives one (`40_tick_and_operands.md` R85 to R88). -/
def operandValue (m : Memory) (L : Nat) (ip0 : Nat) (o : Operand) : Option Word :=
  match o.mode with
  | .immediate => some (fieldWord o.field)
  | .relative => some (m.read (relativeAddr L ip0 o.field))
  | .indirect => some (m.read (indirectAddr m L ip0 o.field))
  | .invalid => none

/-- `Resolve(mode, field, ip0)` (`40_tick_and_operands.md` R85 to R89). -/
def resolve (m : Memory) (L : Nat) (ip0 : Nat) (o : Operand) : Resolved where
  value := operandValue m L ip0 o
  addr := operandAddr m L ip0 o

/-- Steps 2 and 3 for an instruction with the given fields: what the tick records in `last`
(`40_tick_and_operands.md` R82, R83). Both operands are resolved whatever the opcode. -/
def State.latch (s : State) (f : Fields) : LastTick where
  p := s.turn
  ip0 := s.ip s.turn
  w := s.mem.read (s.ip s.turn)
  ins := f
  a := (resolve s.mem s.coreLen (s.ip s.turn) f.a).value
  addrA := (resolve s.mem s.coreLen (s.ip s.turn) f.a).addr
  b := (resolve s.mem s.coreLen (s.ip s.turn) f.b).value
  addrB := (resolve s.mem s.coreLen (s.ip s.turn) f.b).addr

/-- One tick of an instruction with the given fields, its handler given: steps 2 to 7 without the fetch
(`40_tick_and_operands.md` R97). -/
def State.tick (s : State) (f : Fields) (handler : State → LastTick → HandlerResult) : State :=
  s.finishTick (s.latch f) (handler s (s.latch f))

end Sys2Proof.Machine
end

