-- ==== Sys2Proof/Machine/Control.lean ====
section
/-! DEFINITION. `jmp`, `jmz`, `djz` and `cmp` (`43_jmp_jmz_djz_cmp.md`). A jump target is the resolved
address of operand B, used as it is. The required-operand check comes before any test. -/

namespace Sys2Proof.Machine

/-- Requires `addr_b`; sets the pointer to it (`43_jmp_jmz_djz_cmp.md` R130). -/
def jmpHandler (_ : State) (t : LastTick) : HandlerResult :=
  match t.addrB with
  | some addrB => .done none (some addrB)
  | none => .violation

/-- Requires `a` and `addr_b`; jumps if all 32 bits of `a` are zero (`43_jmp_jmz_djz_cmp.md` R131). -/
def jmzHandler (_ : State) (t : LastTick) : HandlerResult :=
  match t.a, t.addrB with
  | some a, some addrB => .done none (if isZero a = true then some addrB else none)
  | _, _ => .violation

/-- Requires `addr_a` and `addr_b`; decrements the cell at `addr_a`, which it reads again, and jumps if
the written value is zero (`43_jmp_jmz_djz_cmp.md` R132). -/
def djzHandler (s : State) (t : LastTick) : HandlerResult :=
  match t.addrA, t.addrB with
  | some addrA, some addrB =>
    .done (some (addrA, decMod (s.mem.read addrA)))
      (if isZero (decMod (s.mem.read addrA)) = true then some addrB else none)
  | _, _ => .violation

/-- Requires `a` and `b`; if they differ, advances by 2 in one step (`43_jmp_jmz_djz_cmp.md` R133). -/
def cmpHandler (s : State) (t : LastTick) : HandlerResult :=
  match t.a, t.b with
  | some a, some b => .done none (if differ a b = true then some (incr s.coreLen t.ip0 2) else none)
  | _, _ => .violation

/-- `jmp` (`43_jmp_jmz_djz_cmp.md` R130). -/
def execJmp (a b : Operand) (s : State) : Host.Outcome State Fault Refusal :=
  .next (s.tick (instrFields (.jmp a b)) jmpHandler)

/-- `jmz` (`43_jmp_jmz_djz_cmp.md` R131). -/
def execJmz (a b : Operand) (s : State) : Host.Outcome State Fault Refusal :=
  .next (s.tick (instrFields (.jmz a b)) jmzHandler)

/-- `djz` (`43_jmp_jmz_djz_cmp.md` R132). -/
def execDjz (a b : Operand) (s : State) : Host.Outcome State Fault Refusal :=
  .next (s.tick (instrFields (.djz a b)) djzHandler)

/-- `cmp` (`43_jmp_jmz_djz_cmp.md` R133). -/
def execCmp (a b : Operand) (s : State) : Host.Outcome State Fault Refusal :=
  .next (s.tick (instrFields (.cmp a b)) cmpHandler)

end Sys2Proof.Machine
end

