-- ==== Sys2Proof/Machine/Dat.lean ====
section
/-! DEFINITION. `dat` and the opcodes without an instruction: both take step 4's "not in {1..7}" branch
(`40_tick_and_operands.md` R90). -/

namespace Sys2Proof.Machine

/-- `raise Violation(cause = dat)`, whatever the operands are (`41_dat.md` R110). -/
def datHandler (_ : State) (_ : LastTick) : HandlerResult := .violation

/-- Opcodes 8 to 15 have no handler and violate (`30_encoding.md` R57, `40_tick_and_operands.md` R90). -/
def illegalHandler (_ : State) (_ : LastTick) : HandlerResult := .violation

/-- `dat` (`41_dat.md` R110). -/
def execDat (a b : Operand) (s : State) : Host.Outcome State Fault Refusal :=
  .next (s.tick (instrFields (.dat a b)) datHandler)

/-- A word with opcode 8 to 15 (`30_encoding.md` R57). -/
def execIllegal (opcode : Opcode) (a b : Operand) (s : State) : Host.Outcome State Fault Refusal :=
  .next (s.tick (instrFields (.illegal opcode a b)) illegalHandler)

end Sys2Proof.Machine
end

