-- ==== Sys2Proof/Machine/MovAddSub.lean ====
section
/-! DEFINITION. `mov`, `add` and `sub` (`42_mov_add_sub.md`). None of them jumps. -/

namespace Sys2Proof.Machine

/-- Requires `a` and `addr_b`; writes all 32 bits of `a` to `addr_b` (`42_mov_add_sub.md` R115). -/
def movHandler (_ : State) (t : LastTick) : HandlerResult :=
  match t.a, t.addrB with
  | some a, some addrB => .done (some (addrB, a)) none
  | _, _ => .violation

/-- Requires `a`, `b` and `addr_b`; writes `(a + b) mod 4096` to `addr_b` (`42_mov_add_sub.md` R116). -/
def addHandler (_ : State) (t : LastTick) : HandlerResult :=
  match t.a, t.b, t.addrB with
  | some a, some b, some addrB => .done (some (addrB, addMod a b)) none
  | _, _, _ => .violation

/-- Requires `a`, `b` and `addr_b`; writes `(b - a) mod 4096` to `addr_b` (`42_mov_add_sub.md` R117). -/
def subHandler (_ : State) (t : LastTick) : HandlerResult :=
  match t.a, t.b, t.addrB with
  | some a, some b, some addrB => .done (some (addrB, subMod a b)) none
  | _, _, _ => .violation

/-- `mov` (`42_mov_add_sub.md` R115). -/
def execMov (a b : Operand) (s : State) : Host.Outcome State Fault Refusal :=
  .next (s.tick (instrFields (.mov a b)) movHandler)

/-- `add` (`42_mov_add_sub.md` R116). -/
def execAdd (a b : Operand) (s : State) : Host.Outcome State Fault Refusal :=
  .next (s.tick (instrFields (.add a b)) addHandler)

/-- `sub` (`42_mov_add_sub.md` R117). -/
def execSub (a b : Operand) (s : State) : Host.Outcome State Fault Refusal :=
  .next (s.tick (instrFields (.sub a b)) subHandler)

end Sys2Proof.Machine
end

