-- ==== Sys2Proof/Machine/Dispatch.lean ====
section
/-! DEFINITION. The dispatch: one arm per constructor of `Instr` (`40_tick_and_operands.md` R90: "a
closed tagged-union/enum of the 8 opcodes with a single dispatch function"). -/

namespace Sys2Proof.Machine

-- steps 2 (from the decoded instruction on) to 7 of one tick
def exec (i : Instr) (s : State) : Host.Outcome State Fault Refusal :=
  match i with
  | .dat a b => Sys2Proof.Machine.execDat a b s
  | .mov a b => Sys2Proof.Machine.execMov a b s
  | .add a b => Sys2Proof.Machine.execAdd a b s
  | .sub a b => Sys2Proof.Machine.execSub a b s
  | .jmp a b => Sys2Proof.Machine.execJmp a b s
  | .jmz a b => Sys2Proof.Machine.execJmz a b s
  | .djz a b => Sys2Proof.Machine.execDjz a b s
  | .cmp a b => Sys2Proof.Machine.execCmp a b s
  | .illegal opcode a b => Sys2Proof.Machine.execIllegal opcode a b s

end Sys2Proof.Machine
end

