-- ==== Sys2Proof/Machine/Fetch.lean ====
section
/-! DEFINITION. What comes before an instruction runs: whether `Update` may be called, the fetch, the
mark that play has begun, and how a word is put where the next step fetches it. -/

namespace Sys2Proof.Machine

/-- Both pointers have been set by the loader, so `Update` may be called (`10_state.md` R24,
`70_reset_and_hazards.md` R189). -/
def State.pointersSet (s : State) : Bool := s.ipASet && s.ipBSet

/-- `ip[turn]`, the address of the cell that executes next (`40_tick_and_operands.md` R82). -/
def State.activeIp (s : State) : Nat := s.ip s.turn

/-- Step 2: the word at the active pointer (`40_tick_and_operands.md` R82). -/
def State.fetchWord (s : State) : Word := s.mem.read s.activeIp

/-- Step 2: the instruction that word stands for (`40_tick_and_operands.md` R82). -/
def State.fetchInstr (s : State) : Instr := decode s.fetchWord

/-- The first `Update` ends the loader's access (`20_memory.md` R43; log entry 3). -/
def State.beginPlay (s : State) : State := { s with started := true }

/-- The load of one word at the active pointer, both pointers then counting as set (log entry 6). -/
def State.placeWord (s : State) (w : Word) : State :=
  { s with mem := Memory.write s.mem s.activeIp w, ipASet := true, ipBSet := true }

end Sys2Proof.Machine
end

