-- ==== Sys2Proof/Machine/Step.lean ====
section
/-! DEFINITION. `Update()`, the one step of the machine (`40_tick_and_operands.md` R80, R97). -/

namespace Sys2Proof.Machine

/-- One call of `Update`. On an ended machine it changes nothing (`40_tick_and_operands.md` R81, step 1).
It is refused while a pointer has not been set (`70_reset_and_hazards.md` R189). Otherwise the word at
the active pointer is fetched, decoded and executed (`40_tick_and_operands.md` R82 to R97). An active
pointer outside the core, which no reachable state has (`10_state.md` R25(a)), is a fault. -/
def step (s : State) : Host.Outcome State Fault Refusal :=
  if s.ended = true then .next s
  else if s.pointersSet = true then
    if s.activeIp < s.coreLen then exec s.fetchInstr s.beginPlay
    else .fault (.outOfCore s.activeIp)
  else .refused .pointersNotSet

/-- `s` with the instruction of `nbits` bits in `w` placed in the cell the next step fetches, and both
pointers counting as set by the loader, which is what a first `Update` needs (log entry 6). -/
def State.withFetchWord (s : State) (nbits w : Nat) : State :=
  s.placeWord (BitVec.ofNat 32 (w % 2 ^ nbits))

end Sys2Proof.Machine
end

