-- ==== Sys2Proof/Machine/Assembler.lean ====
section
/-! DEFINITION. The assembler (`30_encoding.md` section 6): surrounding software, modelled because the
spec gives its input syntax, its errors and its output. The text is a list of characters. -/

namespace Sys2Proof.Machine

/-- The assembler's errors (`30_encoding.md` R68), each with the 1-based number of the physical line. -/
inductive AsmError where
  /-- "numeric literal outside `(-4096, 4096)`" (R66). -/
  | range (line : Nat)
  /-- "unrecognized mnemonic" (R65). -/
  | unknownOpcode (line : Nat)
  /-- `Encode` failed on the line's fields (R53); R67 shows it cannot. -/
  | encoding (line : Nat)
  /-- A line outside the grammar R71 that none of the spec's errors names: wrong operand count, or an
  operand that is no integer. Refused by spec decision D13; the name is the model's (log entry 14). -/
  | malformed (line : Nat)
deriving DecidableEq, Repr

/-- "one or more blanks or tabs" (`30_encoding.md` R71). -/
def isBlank (c : Char) : Bool := c == ' ' || c == '\t'

/-- The first line of a text and whether more follow, character by character. -/
def splitLines : List Char → List (List Char)
  | [] => [[]]
  | c :: cs =>
    if c == '\n' then [] :: splitLines cs
    else match splitLines cs with
      | [] => [[c]]
      | l :: ls => (c :: l) :: ls

/-- The tokens of a line: the maximal runs of characters that are not blank. `inside` says whether the
character before belongs to the first token answered. -/
def tokensFrom : List Char → List (List Char) × Bool
  | [] => ([], false)
  | c :: cs =>
    let rest := tokensFrom cs
    if isBlank c then (rest.1, false)
    else match rest.2, rest.1 with
      | true, t :: ts => ((c :: t) :: ts, true)
      | _, ts => ([c] :: ts, true)

/-- The tokens of a line; trimming it changes nothing (`30_encoding.md` R63). -/
def tokens (line : List Char) : List (List Char) := (tokensFrom line).1

/-- A decimal digit's value. -/
def digitOf (c : Char) : Option Nat :=
  if '0'.toNat ≤ c.toNat ∧ c.toNat ≤ '9'.toNat then some (c.toNat - '0'.toNat) else none

/-- The number a run of digits spells, `acc` being what stands before them. -/
def digitsFrom : Nat → List Char → Option Nat
  | acc, [] => some acc
  | acc, c :: cs =>
    match digitOf c with
    | some d => digitsFrom (10 * acc + d) cs
    | none => none

/-- `digit+` (`30_encoding.md` R71). -/
def parseNat (cs : List Char) : Option Nat :=
  match cs with
  | [] => none
  | c :: rest => digitsFrom 0 (c :: rest)

/-- `[ "-" ] digit+` (`30_encoding.md` R71): no leading `+` (spec decision D13). -/
def parseInt (cs : List Char) : Option Int :=
  match cs with
  | '-' :: rest => (parseNat rest).map (fun n => -(n : Int))
  | _ => (parseNat cs).map (fun n => (n : Int))

/-- Folding of a literal (`30_encoding.md` R67): 4096 is added to a negative one. -/
def foldLiteral (i : Int) : Int := if 0 ≤ i then i else i + 4096

/-- The mode code and the rest of an operand token: `#` Immediate, `@` Indirect, neither Relative
(`30_encoding.md` R66). -/
def splitPrefix (tok : List Char) : Int × List Char :=
  match tok with
  | '#' :: rest => (0, rest)
  | '@' :: rest => (2, rest)
  | _ => (1, tok)

/-- An operand token: its mode code and its folded field (`30_encoding.md` R66, R67). -/
def parseOperand (line : Nat) (tok : List Char) : Except AsmError (Int × Int) :=
  match parseInt (splitPrefix tok).2 with
  | none => .error (.malformed line)
  | some i =>
    if -4096 < i ∧ i < 4096 then .ok ((splitPrefix tok).1, foldLiteral i) else .error (.range line)

/-- The opcode of a one-operand mnemonic (`30_encoding.md` R65). -/
def opcodeOne (tok : List Char) : Option Int :=
  if tok = ['d', 'a', 't'] then some 0
  else if tok = ['j', 'm', 'p'] then some 4
  else none

/-- The opcode of a two-operand mnemonic (`30_encoding.md` R65). -/
def opcodeTwo (tok : List Char) : Option Int :=
  if tok = ['m', 'o', 'v'] then some 1
  else if tok = ['a', 'd', 'd'] then some 2
  else if tok = ['s', 'u', 'b'] then some 3
  else if tok = ['j', 'm', 'z'] then some 5
  else if tok = ['d', 'j', 'z'] then some 6
  else if tok = ['c', 'm', 'p'] then some 7
  else none

/-- `Encode` in the assembler: its failure aborts the assembly (`30_encoding.md` R68). -/
def encodeLine (line : Nat) (opcode modeA fieldA modeB fieldB : Int) : Except AsmError Word :=
  match encodeArgs opcode modeA fieldA modeB fieldB with
  | .ok w => .ok w
  | .error _ => .error (.encoding line)

/-- `word(op1 arg) = Encode(code(op1), 0, 0, mode(arg), fold(arg))` (`30_encoding.md` R65, R71). -/
def assembleOne (line : Nat) (opcode : Int) (argB : List Char) : Except AsmError Word :=
  match parseOperand line argB with
  | .error e => .error e
  | .ok b => encodeLine line opcode 0 0 b.1 b.2

/-- `word(op2 argA argB) = Encode(code(op2), mode(argA), fold(argA), mode(argB), fold(argB))`
(`30_encoding.md` R65, R71): field A then field B in source order. -/
def assembleTwo (line : Nat) (opcode : Int) (argA argB : List Char) : Except AsmError Word :=
  match parseOperand line argA, parseOperand line argB with
  | .error e, _ => .error e
  | .ok _, .error e => .error e
  | .ok a, .ok b => encodeLine line opcode a.1 a.2 b.1 b.2

/-- What one line contributes. -/
inductive LineItem where
  | nothing
  | load
  | word (w : Word)
deriving DecidableEq, Repr

/-- One line (`30_encoding.md` R63 to R65, R71): blank and comment lines give nothing, `LOAD` alone is
the directive, else the first token is the mnemonic. -/
def assembleLine (line : Nat) (text : List Char) : Except AsmError LineItem :=
  match tokens text with
  | [] => .ok .nothing
  | (';' :: _) :: _ => .ok .nothing
  | head :: args =>
    if head = ['L', 'O', 'A', 'D'] then
      match args with
      | [] => .ok .load
      | _ => .error (.malformed line)
    else match opcodeOne head, opcodeTwo head with
      | some opcode, _ =>
        match args with
        | [argB] => (assembleOne line opcode argB).map .word
        | _ => .error (.malformed line)
      | none, some opcode =>
        match args with
        | [argA, argB] => (assembleTwo line opcode argA argB).map .word
        | _ => .error (.malformed line)
      | none, none => .error (.unknownOpcode line)

/-- The lines from number `line` on, with the words so far (in order) and the entry offset so far. The
first error aborts the assembly (`30_encoding.md` R68). `LOAD` records the count of words so far, the
last occurrence wins (R64). -/
def assembleLines (line : Nat) (sofar : List Word) (offset : Nat) :
    List (List Char) → Except AsmError Warrior
  | [] => .ok { offset := offset, words := sofar }
  | text :: rest =>
    match assembleLine line text with
    | .error e => .error e
    | .ok .nothing => assembleLines (line + 1) sofar offset rest
    | .ok .load => assembleLines (line + 1) sofar sofar.length rest
    | .ok (.word w) => assembleLines (line + 1) (sofar ++ [w]) offset rest

/-- The assembler on a text as characters: the entry offset is 0 if no `LOAD` appears
(`30_encoding.md` R64, R69). -/
def assembleChars (text : List Char) : Except AsmError Warrior :=
  assembleLines 1 [] 0 (splitLines text)

/-- The assembler on a text. -/
def assemble (text : String) : Except AsmError Warrior := assembleChars text.toList

/-- The serialized form `[offset, word, word, ...]` (`30_encoding.md` R69). -/
def serialize (w : Warrior) : List Nat := w.offset :: w.words.map (fun x => x.toNat)

/-- The warrior a serialized form stands for: the first element is the offset, the others must be 32-bit
words (`30_encoding.md` R69, `70_reset_and_hazards.md` R181). -/
def deserialize (xs : List Nat) : Option Warrior :=
  match xs with
  | [] => none
  | offset :: ws =>
    if ws.all (fun x => decide (x < 2 ^ 32)) = true then
      some { offset := offset, words := ws.map (fun x => BitVec.ofNat 32 x) }
    else none

end Sys2Proof.Machine
end

