-- ==== Sys2Proof/Machine/Effects.lean ====
section
/-! DEFINITION. The handler of each instruction by name, so that what a tick writes can be said without
running it (the `on_write` event of `10_state.md` R23). -/

namespace Sys2Proof.Machine

/-- The handler of an instruction (`40_tick_and_operands.md` R97, the `case` of the transition). -/
def handlerOf (i : Instr) : State → LastTick → HandlerResult :=
  match i with
  | .dat _ _ => datHandler
  | .mov _ _ => movHandler
  | .add _ _ => addHandler
  | .sub _ _ => subHandler
  | .jmp _ _ => jmpHandler
  | .jmz _ _ => jmzHandler
  | .djz _ _ => djzHandler
  | .cmp _ _ => cmpHandler
  | .illegal _ _ _ => illegalHandler

/-- What the handler of `i` answers when `i` is the active program's instruction in `s`. -/
def effectOf (i : Instr) (s : State) : HandlerResult := handlerOf i s (s.latch (instrFields i))

/-- The cell a handler's answer writes, if it writes one. -/
def HandlerResult.target (r : HandlerResult) : Option Nat :=
  match r with
  | .violation => none
  | .done none _ => none
  | .done (some (addr, _)) _ => some addr

/-- The address of the `on_write(addr)` event that executing `i` in `s` emits (`10_state.md` R23,
`20_memory.md` R31): every `MemWrite` emits it, whether or not the value changes (91 N10). -/
def writeTarget (i : Instr) (s : State) : Option Nat := (effectOf i s).target

end Sys2Proof.Machine
end

