-- ==== Sys2Proof/Machine/Interface.lean ====
section
/-! DEFINITION. The commands the machine accepts from outside (`10_state.md` R22): `Reset`, the two
loader commands, `Update`. Their misuse is refused (`70_reset_and_hazards.md` R189). A re-entrant
`Update` and an observer that writes cannot be written down here at all: a command is one whole
transition and the observer has no command (spec decisions D10 and D20). -/

namespace Sys2Proof.Machine

/-- The commands of `10_state.md` R22. -/
inductive Command where
  | reset (L : Nat)
  | loadWrite (addr : Nat) (w : Word)
  | loadSetIP (p : ProgramId) (addr : Nat)
  | update
deriving DecidableEq, Repr

/-- The mark that the loader has set the pointer of `p`. -/
def State.markIpSet (s : State) (p : ProgramId) : State :=
  match p with
  | .A => { s with ipASet := true }
  | .B => { s with ipBSet := true }

/-- `LoadSetIP(p, addr)` without its checks: `ip[p] <- addr`. -/
def State.loadIp (s : State) (p : ProgramId) (addr : Nat) : State := (s.setIp p addr).markIpSet p

/-- `Reset(L)`: the state of `10_state.md` R24, whatever the state before (`70_reset_and_hazards.md` R180). -/
def cmdReset (L : Nat) : Host.Outcome State Fault Refusal :=
  if 0 < L then .next (State.resetOf L) else .refused .emptyCore

/-- `LoadWrite(addr, w)`: legal only before the first `Update` and for `0 <= addr < L`. -/
def cmdLoadWrite (addr : Nat) (w : Word) (s : State) : Host.Outcome State Fault Refusal :=
  if s.started = true then .refused .loadAfterStart
  else if addr < s.coreLen then .next (s.writeCell addr w)
  else .refused (.addressOutsideCore addr)

/-- `LoadSetIP(p, addr)`: legal only before the first `Update` and for `0 <= addr < L`. -/
def cmdLoadSetIP (p : ProgramId) (addr : Nat) (s : State) : Host.Outcome State Fault Refusal :=
  if s.started = true then .refused .loadAfterStart
  else if addr < s.coreLen then .next (s.loadIp p addr)
  else .refused (.addressOutsideCore addr)

/-- One command. -/
def runCommand (c : Command) (s : State) : Host.Outcome State Fault Refusal :=
  match c with
  | .reset L => cmdReset L
  | .loadWrite addr w => cmdLoadWrite addr w s
  | .loadSetIP p addr => cmdLoadSetIP p addr s
  | .update => step s

end Sys2Proof.Machine
end

