-- ==== Sys2Proof/Machine/Loader.lean ====
section
/-! DEFINITION. The loader (`70_reset_and_hazards.md` R181 to R187): surrounding software, the one agent
that brings the machine from reset to a launch state. Its two random draws are arguments (spec decision
D14); its address arithmetic is plain `mod L` (R183). -/

namespace Sys2Proof.Machine

/-- Why a load makes no launch state (`60_exceptions.md` R163): each error surfaces "with line/position
context" where it has a position. -/
inductive LoadError where
  /-- `CapacityError` (`70_reset_and_hazards.md` R181): it is about the two lengths and has no position. -/
  | capacity
  /-- `InvalidInstructionError` (`70_reset_and_hazards.md` R182), with its position: the warrior, the index
  of the offending word among that warrior's words, counted from 0, and the word. Reporting the first such
  word, A's before B's, and this form of the position are a DESIGN CHOICE (log entry 13). -/
  | invalidInstruction (p : ProgramId) (index : Nat) (w : Word)
  /-- `base_a` or `r` outside its range (`70_reset_and_hazards.md` R183, R184): no draw of the loader
  (log entry 13). -/
  | notADraw
deriving DecidableEq, Repr

/-- The loader's one check of a word: opcode 8 to 15 fails, opcode 0 passes, modes are not looked at
(`70_reset_and_hazards.md` R182, `90_conflicts.md` C7). -/
def loadable (w : Word) : Bool := decide ((decodeFields w).opcode.toNat ≤ 7)

/-- The first word the loader rejects and its index, the list's first word having index `i`. -/
def firstUnloadable : Nat → List Word → Option (Nat × Word)
  | _, [] => none
  | i, w :: ws => if loadable w = true then firstUnloadable (i + 1) ws else some (i, w)

/-- The loader's validation of both warriors (`70_reset_and_hazards.md` R182): the error, if there is one. -/
def validatePrograms (A B : Warrior) : Option LoadError :=
  match firstUnloadable 0 A.words with
  | some (i, w) => some (.invalidInstruction .A i w)
  | none =>
    match firstUnloadable 0 B.words with
    | some (j, w) => some (.invalidInstruction .B j w)
    | none => none

/-- `M[(base + i) mod L] <- words[i]`, wrapping (`70_reset_and_hazards.md` R183, R184). -/
def State.placeWords (s : State) (base : Nat) : List Word → State
  | [] => s
  | w :: ws => State.placeWords (s.writeCell (base % s.coreLen) w) (base + 1) ws

/-- `base_b = (base_a + len(A) + r) mod L` (`70_reset_and_hazards.md` R184). -/
def baseB (L baseA lenA r : Nat) : Nat := (baseA + lenA + r) % L

/-- The launch state of a load that passed its checks: both programs written into a fresh core, then both
pointers set (`70_reset_and_hazards.md` R183 to R185). -/
def launch (L : Nat) (A B : Warrior) (baseA r : Nat) : State :=
  (((((State.resetOf L).placeWords baseA A.words).placeWords (baseB L baseA A.words.length r)
    B.words).loadIp .A ((baseA + A.offset) % L)).loadIp .B
    ((baseB L baseA A.words.length r + B.offset) % L))

/-- The loader: "fails with `CapacityError` if `len(words_a) + len(words_b) >= core_length`", then
rejects opcodes 8 to 15, then places both programs (`70_reset_and_hazards.md` R181 to R185). -/
def load (L : Nat) (A B : Warrior) (baseA r : Nat) : Except LoadError State :=
  if L ≤ A.words.length + B.words.length then .error .capacity
  else match validatePrograms A B with
    | some e => .error e
    | none =>
      if baseA < L ∧ r < L - A.words.length - B.words.length then .ok (launch L A B baseA r)
      else .error .notADraw

end Sys2Proof.Machine
end

