-- ==== Sys2Proof/Machine/Observer.lean ====
section
/-! DEFINITION. The read-only outputs (`10_state.md` R23), `Update`'s return value
(`40_tick_and_operands.md` R96), the disassembly display (`30_encoding.md` R73) and the diagnostic
reading of a violation (`60_exceptions.md` R151, R152). Each is a function of the state at a tick
boundary; nothing here changes it. -/

namespace Sys2Proof.Machine

/-- `memory_snapshot()`: the `L` words `M[0], ..., M[L-1]`. -/
def memorySnapshot (s : State) : List Word := (List.range s.coreLen).map (fun addr => s.mem.read addr)

/-- `active_ip()`: `(turn, ip[turn])`. -/
def activeIpOutput (s : State) : ProgramId × Nat := (s.turn, s.activeIp)

/-- `is_ended()`. -/
def isEndedOutput (s : State) : Bool := s.ended

/-- `winner()`. -/
def winnerOutput (s : State) : Option ProgramId := s.winner

/-- What an `Update` from `s` returns, "whether a tick occurred": false exactly when the machine had
ended (`40_tick_and_operands.md` R96, spec decision D16). -/
def updateReturns (s : State) : Bool := !s.ended

/-- The `on_write(addr)` event an `Update` from `s` emits (`10_state.md` R23): none where it executes no
instruction. -/
def onWriteEvent (s : State) : Option Nat :=
  if s.ended = true then none
  else if s.pointersSet = true then writeTarget s.fetchInstr s
  else none

/-- The mnemonic of an opcode (`30_encoding.md` R56); opcodes 8 to 15 have none (R57). -/
def mnemonicOf (opcode : Opcode) : Option String :=
  match opcode.toNat with
  | 0 => some "dat"
  | 1 => some "mov"
  | 2 => some "add"
  | 3 => some "sub"
  | 4 => some "jmp"
  | 5 => some "jmz"
  | 6 => some "djz"
  | 7 => some "cmp"
  | _ => none

/-- A displayed field: re-biased to a negative number from 3968 up (`30_encoding.md` R73, spec decision
D15). -/
def displayField (f : Field) : Int := if 3968 ≤ f.toNat then (f.toNat : Int) - 4096 else (f.toNat : Int)

/-- "opcode mnemonic, both operand mode+field pairs" (`10_state.md` R23). -/
structure DisassemblyRecord where
  mnemonic : Option String
  modeA    : Mode
  fieldA   : Int
  modeB    : Mode
  fieldB   : Int
deriving DecidableEq, Repr

/-- The display of decoded fields (`30_encoding.md` R73). -/
def disassemble (f : Fields) : DisassemblyRecord where
  mnemonic := mnemonicOf f.opcode
  modeA := f.a.mode
  fieldA := displayField f.a.field
  modeB := f.b.mode
  fieldB := displayField f.b.field

/-- `last_decoded_instruction()` (`10_state.md` R23): nothing before the first tick. -/
def lastDecodedInstruction (s : State) : Option DisassemblyRecord :=
  s.last.map (fun t => disassemble t.ins)

/-- The four results an opcode may require. -/
inductive Required where
  | a
  | addrA
  | b
  | addrB
deriving DecidableEq, Repr

/-- The required results of opcodes 1 to 7 (`40_tick_and_operands.md` section 6). Their order here is a
DESIGN CHOICE (log entry 22). -/
def requiredOf (opcode : Opcode) : List Required :=
  match opcode.toNat with
  | 1 => [.a, .addrB]
  | 2 => [.a, .b, .addrB]
  | 3 => [.a, .b, .addrB]
  | 4 => [.addrB]
  | 5 => [.a, .addrB]
  | 6 => [.addrA, .addrB]
  | 7 => [.a, .b]
  | _ => []

/-- Whether a tick resolved the result to `None`. -/
def isMissing (t : LastTick) (r : Required) : Bool :=
  match r with
  | .a => t.a.isNone
  | .addrA => t.addrA.isNone
  | .b => t.b.isNone
  | .addrB => t.addrB.isNone

/-- The labels of `60_exceptions.md` R151, for diagnostics only (spec decision D11). R152 gives the missing
results no order; the list's order is a DESIGN CHOICE (log entry 22). -/
inductive ViolationCause where
  | vDat
  | vOpcode
  | vOperand (missing : List Required)
deriving DecidableEq, Repr

/-- The cause of the violation a tick raised, derived from what it recorded (`60_exceptions.md` R151,
R152): all missing required results are offending. R152 gives them no order: listing them in the order of
`requiredOf` (`a`, `addr_a`, `b`, `addr_b`) is a DESIGN CHOICE (log entry 22). Nothing where the tick
raised none. -/
def violationCause (t : LastTick) : Option ViolationCause :=
  if t.ins.opcode.toNat = 0 then some .vDat
  else if 7 < t.ins.opcode.toNat then some .vOpcode
  else match (requiredOf t.ins.opcode).filter (isMissing t) with
    | [] => none
    | r :: rs => some (.vOperand (r :: rs))

end Sys2Proof.Machine
end

