-- ==== Sys2Proof/Safety.lean ====
section
/-! DEFINITION. What counts as a good state and a safe run, in the terms the statements use. -/

namespace Sys2Proof

/-- The operand's mode gives a value: 0, 1 or 2 (`40_tick_and_operands.md` R89). -/
abbrev Operand.HasValue (o : Operand) : Prop := o.mode ≠ .invalid

/-- The operand's mode gives an address: 1 or 2 (`40_tick_and_operands.md` R89). -/
abbrev Operand.HasAddr (o : Operand) : Prop := o.mode = .relative ∨ o.mode = .indirect

end Sys2Proof

namespace Sys2Proof.Machine

/-- Both pointers are addresses of the core, which has at least one cell (`10_state.md` R25(a),
`00_scope.md` R6). -/
abbrev State.PointersInCore (s : State) : Prop :=
  0 < s.coreLen ∧ s.ipA < s.coreLen ∧ s.ipB < s.coreLen

/-- `ended == violated == (winner != None)` (`10_state.md` R25(c)). -/
abbrev State.FlagsAgree (s : State) : Prop :=
  s.ended = s.violated ∧ s.ended = s.winner.isSome

/-- The memory is in its canonical form and lists only cells of the core (log entry 4). -/
abbrev State.MemoryOk (s : State) : Prop := Memory.wf s.mem ∧ Memory.inCore s.mem s.coreLen

/-- The invariant of every tick boundary (`10_state.md` R25). -/
abbrev State.Inv (s : State) : Prop := s.PointersInCore ∧ s.FlagsAgree ∧ s.MemoryOk

/-- The launch state (`70_reset_and_hazards.md` R188): what must be true before the first `Update`. -/
abbrev State.Launch (s : State) : Prop :=
  s.Inv ∧ s.turn = .A ∧ s.violated = false ∧ s.ended = false ∧ s.winner = none ∧
    s.pointersSet = true

/-- The state may take a tick: both pointers set, not ended, both pointers in the core. -/
abbrev State.Ready (s : State) : Prop :=
  s.pointersSet = true ∧ s.ended = false ∧ s.activeIp < s.coreLen

/-- No cell holds a word with bit 31 set, that is an opcode above 7 (`70_reset_and_hazards.md` R182). -/
abbrev State.NoIllegalCell (s : State) : Prop := ∀ addr, (s.mem.read addr).getLsbD 31 = false

/-- The value of an operand of the active program's instruction in `s`. -/
abbrev State.valueOf (s : State) (o : Operand) : Option Word :=
  operandValue s.mem s.coreLen (s.ip s.turn) o

/-- The address of an operand of the active program's instruction in `s`. -/
abbrev State.addrOf (s : State) (o : Operand) : Option Nat :=
  operandAddr s.mem s.coreLen (s.ip s.turn) o

/-- The instructions that violate, by their opcode and modes alone (`40_tick_and_operands.md` section 6). -/
def ViolatesByMode (i : Instr) : Prop :=
  match i with
  | .dat _ _ => True
  | .mov a b => ¬a.HasValue ∨ ¬b.HasAddr
  | .add a b => ¬a.HasValue ∨ ¬b.HasAddr
  | .sub a b => ¬a.HasValue ∨ ¬b.HasAddr
  | .jmp _ b => ¬b.HasAddr
  | .jmz a b => ¬a.HasValue ∨ ¬b.HasAddr
  | .djz a b => ¬a.HasAddr ∨ ¬b.HasAddr
  | .cmp a b => ¬a.HasValue ∨ ¬b.HasValue
  | .illegal _ _ _ => True

/-- Everything a completed tick of the active program leaves alone: the other pointer, the flags, the
winner, the parameter and the interface marks; and what every tick does: `turn` flips and `last` records
the tick of an instruction with fields `f`. -/
structure TickFrame (s t : State) (f : Fields) : Prop where
  otherIp : t.ip (other s.turn) = s.ip (other s.turn)
  turn : t.turn = other s.turn
  violated : t.violated = s.violated
  ended : t.ended = s.ended
  winner : t.winner = s.winner
  last : t.last = some (s.latch f)
  coreLen : t.coreLen = s.coreLen
  ipASet : t.ipASet = s.ipASet
  ipBSet : t.ipBSet = s.ipBSet
  started : t.started = s.started

/-- The memory is the same, and every cell reads as before. -/
abbrev SameMemory (s t : State) : Prop :=
  t.mem = s.mem ∧ ∀ addr, t.mem.read addr = s.mem.read addr

/-- Cell `target` holds `x` and every other cell reads as before. -/
abbrev OneCellWritten (s t : State) (target : Nat) (x : Word) : Prop :=
  t.mem.read target = x ∧ ∀ addr, addr ≠ target → t.mem.read addr = s.mem.read addr

/-- Taking the violation (`60_exceptions.md` R154): the state before the tick except for `violated`,
`ended`, `winner`, `turn` and `last`. -/
structure Violates (s t : State) (f : Fields) : Prop where
  mem : t.mem = s.mem
  ipA : t.ipA = s.ipA
  ipB : t.ipB = s.ipB
  turn : t.turn = other s.turn
  violated : t.violated = true
  ended : t.ended = true
  winner : t.winner = some (other s.turn)
  last : t.last = some (s.latch f)
  coreLen : t.coreLen = s.coreLen
  ipASet : t.ipASet = s.ipASet
  ipBSet : t.ipBSet = s.ipBSet
  started : t.started = s.started

/-- Word `index` of a warrior's words is `w`, has an opcode above 7, and no word before it has one. -/
abbrev FirstIllegalWord (ws : List Word) (index : Nat) (w : Word) : Prop :=
  ws[index]? = some w ∧ 8 ≤ (decodeFields w).opcode.toNat ∧
    ∀ j v, j < index → ws[j]? = some v → (decodeFields v).opcode.toNat ≤ 7

/-- The instruction `s` fetches writes the word `x` to the cell `d` when it completes: what `mov`, `add`,
`sub` and `djz` write and where (`42_mov_add_sub.md` R115 to R117, `43_jmp_jmz_djz_cmp.md` R132). -/
inductive WritesWord (s : State) (d : Nat) (x : Word) : Prop where
  | mov (a b : Operand) : s.fetchInstr = .mov a b → s.valueOf a = some x → s.addrOf b = some d →
      WritesWord s d x
  | add (a b : Operand) (va vb : Word) : s.fetchInstr = .add a b → s.valueOf a = some va →
      s.valueOf b = some vb → s.addrOf b = some d →
      x = BitVec.ofNat 32 ((va.toNat + vb.toNat) % 4096) → WritesWord s d x
  | sub (a b : Operand) (va vb : Word) : s.fetchInstr = .sub a b → s.valueOf a = some va →
      s.valueOf b = some vb → s.addrOf b = some d →
      x = BitVec.ofNat 32 ((vb.toNat + (4096 - va.toNat % 4096)) % 4096) → WritesWord s d x
  | djz (a b : Operand) : s.fetchInstr = .djz a b → s.addrOf a = some d → b.HasAddr →
      x = BitVec.ofNat 32 (((s.mem.read d).toNat + 4095) % 4096) → WritesWord s d x

/-- `n` calls of `Update` in a row, stopping at the first that answers no next state. -/
def runFor : Nat → State → Host.Outcome State Fault Refusal
  | 0, s => .next s
  | n + 1, s =>
    match step s with
    | .next t => runFor n t
    | .fault r => .fault r
    | .refused r => .refused r

/-- A run is safe for the machine while every step answers a next state: `n` steps from `s` do. -/
def SafeFor : Nat → State → Prop
  | 0, _ => True
  | n + 1, s => ∃ t, step s = .next t ∧ SafeFor n t

end Sys2Proof.Machine
end

