-- ==== Sys2Proof/Certificates/Slice0/Obligations.lean ====
section
/-! DEFINITION. The statements for the provers. Each docstring names the rule of `spec/` it formalises.
Statements about instructions speak of `exec` in any state; statements about the machine speak of `step`.
`L` is the field `coreLen`, so every statement holds for every core length it does not restrict. -/

open Sys2Proof Sys2Proof.Machine

/-! ### The codec -/

/-- Decoding an encoded well-formed instruction gives it back, with every opcode, mode and field
(`30_encoding.md` sections 1 to 3). -/
def Obligations.DecodeInvertsEncode : Prop :=
  ∀ i : Instr, i.WellFormed → decode (encode i) = i

/-- Every word is the encoding of what it decodes to, and what it decodes to is well formed
(`30_encoding.md` sections 1 and 2: no bit of a word is ignored). -/
def Obligations.EncodeInvertsDecode : Prop :=
  ∀ w : Word, encode (decode w) = w ∧ (decode w).WellFormed

/-- The toolchain's `Encode` and `Decode` invert each other on legal opcodes, mode 3 included, and
`Encode` refuses the fields of a word with opcode 8 to 15 (`30_encoding.md` section 2; the second
direction is the spec's own inference there, "derived: from rules R52 and R53"). -/
def Obligations.ToolchainEncodeRoundTrip : Prop :=
  (∀ opcode modeA fieldA modeB fieldB : Nat, opcode ≤ 7 → modeA ≤ 3 → fieldA < 4096 → modeB ≤ 3 →
    fieldB < 4096 → ∃ w, encodeArgs opcode modeA fieldA modeB fieldB = .ok w ∧
      (decodeFields w).opcode.toNat = opcode ∧
      (modeBits (decodeFields w).a.mode).toNat = modeA ∧ (decodeFields w).a.field.toNat = fieldA ∧
      (modeBits (decodeFields w).b.mode).toNat = modeB ∧ (decodeFields w).b.field.toNat = fieldB) ∧
  (∀ w : Word,
    encodeArgs (decodeFields w).opcode.toNat (modeBits (decodeFields w).a.mode).toNat
      (decodeFields w).a.field.toNat (modeBits (decodeFields w).b.mode).toNat
      (decodeFields w).b.field.toNat =
      if (decodeFields w).opcode.toNat ≤ 7 then .ok w else .error .opcode)

/-- R53: `Encode` answers the weighted sum of its arguments, and fails exactly on an opcode above 7, a
mode above 3, a field above 4095 or a negative argument. -/
def Obligations.ToolchainEncodeValueAndFailures : Prop :=
  ∀ opcode modeA fieldA modeB fieldB : Int,
    ((0 ≤ opcode ∧ opcode ≤ 7 ∧ 0 ≤ modeA ∧ modeA ≤ 3 ∧ 0 ≤ fieldA ∧ fieldA ≤ 4095 ∧
        0 ≤ modeB ∧ modeB ≤ 3 ∧ 0 ≤ fieldB ∧ fieldB ≤ 4095) →
      ∃ w, encodeArgs opcode modeA fieldA modeB fieldB = .ok w ∧
        (w.toNat : Int) = opcode * 2 ^ 28 + modeA * 2 ^ 26 + modeB * 2 ^ 24 + fieldA * 2 ^ 12 + fieldB ∧
        w = BitVec.ofInt 4 opcode ++ BitVec.ofInt 2 modeA ++ BitVec.ofInt 2 modeB ++
          BitVec.ofInt 12 fieldA ++ BitVec.ofInt 12 fieldB) ∧
    (opcode < 0 ∨ 7 < opcode ∨ modeA < 0 ∨ 3 < modeA ∨ fieldA < 0 ∨ 4095 < fieldA ∨
        modeB < 0 ∨ 3 < modeB ∨ fieldB < 0 ∨ 4095 < fieldB →
      ∃ e, encodeArgs opcode modeA fieldA modeB fieldB = .error e)

/-- Words written out in `30_encoding.md` section 5 decode to their instructions. -/
def Obligations.SampleWordsDecode : Prop :=
  decode 0x00000000#32 = .dat ⟨.immediate, 0⟩ ⟨.immediate, 0⟩ ∧
  decode 0x15000001#32 = .mov ⟨.relative, 0⟩ ⟨.relative, 1⟩ ∧
  decode 0x21004003#32 = .add ⟨.immediate, 4⟩ ⟨.relative, 3⟩ ∧
  decode 0x41000FFE#32 = .jmp ⟨.immediate, 0⟩ ⟨.relative, 4094⟩ ∧
  decode 0x7AFFFFFF#32 = .cmp ⟨.indirect, 4095⟩ ⟨.indirect, 4095⟩

/-- A number below 4096, as `add`, `sub`, `djz` and an Immediate `mov` write it, decodes as `dat #n`
(`30_encoding.md` section 4). -/
def Obligations.WrittenNumberDecodesAsDat : Prop :=
  ∀ n : Nat, n < 4096 →
    decode (BitVec.ofNat 32 n) = .dat ⟨.immediate, 0⟩ ⟨.immediate, BitVec.ofNat 12 n⟩

/-! ### Address arithmetic -/

/-- `Fold` is the two moduli in their order on every integer, and its range is `[0, min(L, 4096))`
(`20_memory.md` R33 and section 5 (a)). -/
def Obligations.FoldIsTwoModuli : Prop :=
  ∀ (L : Nat) (x : Int), 0 < L →
    ((fold L x : Nat) : Int) = (x % 4096) % (L : Int) ∧ fold L x < L ∧ fold L x < 4096

/-- Where `L` divides 4096 the ring is uniform, and the field `4096 - k` is the displacement `-k`
(`20_memory.md` section 5 (b)). -/
def Obligations.FoldUniformRing : Prop :=
  ∀ L : Nat, 0 < L → L ∣ 4096 →
    (∀ x : Int, ((fold L x : Nat) : Int) = x % (L : Int)) ∧
    (∀ (x : Int) (k : Nat), k ≤ 4096 → fold L (x + (4096 - (k : Int))) = fold L (x - (k : Int)))

/-- Where `L` is below 4096 and does not divide it, a sum past 4096 lands elsewhere than modulo-`L`
arithmetic would put it, and a backward displacement is kept only while it does not cross address 0
(`20_memory.md` section 5 (c)). -/
def Obligations.FoldSeam : Prop :=
  ∀ L : Nat, 0 < L → L ≤ 4096 → ¬ L ∣ 4096 →
    (∀ x : Nat, x < 4096 → fold L (x : Int) = x % L) ∧
    (∀ x : Nat, 4096 ≤ x → x < 8192 → fold L (x : Int) = (x - 4096) % L ∧ fold L (x : Int) ≠ x % L) ∧
    (∀ ip0 k : Nat, ip0 < L → 0 < k → k ≤ 4096 →
      (k ≤ ip0 → fold L ((ip0 : Int) + (4096 - (k : Int))) = ip0 - k) ∧
      (ip0 < k → fold L ((ip0 : Int) + (4096 - (k : Int))) = (ip0 + 4096 - k) % L ∧
        ((fold L ((ip0 : Int) + (4096 - (k : Int))) : Nat) : Int) ≠ ((ip0 : Int) - (k : Int)) % (L : Int)))

/-- Only the low 12 bits of each summand matter, and folding twice is folding once (`20_memory.md`
section 5 (e), (f)). -/
def Obligations.FoldLowTwelveBits : Prop :=
  ∀ (L : Nat) (x y : Int), 0 < L →
    fold L (x + y) = fold L (x % 4096 + y % 4096) ∧ fold L ((fold L x : Nat) : Int) = fold L x

/-- R94: an advance by any integer stays in `[0, L)`; where the last cells wrap, for every `L`. -/
def Obligations.IncrWraps : Prop :=
  ∀ L : Nat, 0 < L →
    (∀ (ip0 : Nat) (delta : Int), incr L ip0 delta < L ∧
      ((incr L ip0 delta : Nat) : Int) = (((ip0 : Int) + delta) % 4096) % (L : Int)) ∧
    (L ≤ 4096 → incr L (L - 1) 1 = 0) ∧
    ((2 ≤ L ∧ L ≤ 4094) ∨ L = 4096 → incr L (L - 1) 2 = 1) ∧
    (L = 1 ∨ L = 4095 → incr L (L - 1) 2 = 0) ∧
    (4096 < L → incr L 4095 1 = 0 ∧ ∀ x, x < L → incr L x 1 = (x + 1) % 4096)

/-- The skip of `cmp` is one advance of 2; two advances of 1 agree with it except in the last cell but
none of a core of 4095 cells (`43_jmp_jmz_djz_cmp.md`, section of `cmp`). -/
def Obligations.SkipIsTwoAdvances : Prop :=
  ∀ L ip0 : Nat, ip0 < L →
    (incr L (incr L ip0 1) 1 = incr L ip0 2 ↔ ¬ (L = 4095 ∧ ip0 = 4094))

/-! ### The operand resolver -/

/-- R85 to R88: what each mode resolves to, for every memory, length, address and field. -/
def Obligations.ResolverByMode : Prop :=
  ∀ (m : Memory) (L ip0 : Nat) (f : Field),
    resolve m L ip0 ⟨.immediate, f⟩ = ⟨some (BitVec.ofNat 32 f.toNat), none⟩ ∧
    resolve m L ip0 ⟨.relative, f⟩ =
      ⟨some (m.read (fold L (ip0 + f.toNat))), some (fold L (ip0 + f.toNat))⟩ ∧
    resolve m L ip0 ⟨.indirect, f⟩ =
      ⟨some (m.read (fold L (fold L (ip0 + f.toNat) + (m.read (fold L (ip0 + f.toNat))).toNat))),
       some (fold L (fold L (ip0 + f.toNat) + (m.read (fold L (ip0 + f.toNat))).toNat))⟩ ∧
    resolve m L ip0 ⟨.invalid, f⟩ = ⟨none, none⟩

/-- What each mode makes available: a value is missing only in mode 3, an address in modes 0 and 3, an
Immediate value is below 4096 (`40_tick_and_operands.md` section 2, the table). -/
def Obligations.ResolverAvailability : Prop :=
  ∀ (s : State) (o : Operand),
    ((s.valueOf o).isSome ↔ o.HasValue) ∧ ((s.addrOf o).isSome ↔ o.HasAddr) ∧
    (∀ d, s.addrOf o = some d → s.valueOf o = some (s.mem.read d)) ∧
    (o.mode = .immediate → ∃ v, s.valueOf o = some v ∧ v.toNat < 4096)

/-- An Indirect operand uses only the low 12 bits of its pointer word, which are the pointer cell's
field B (`40_tick_and_operands.md` section 2, the spec's own inference from R87 and R44(e)). -/
def Obligations.IndirectUsesFieldB : Prop :=
  ∀ (m : Memory) (L ip0 : Nat) (f : Field),
    operandAddr m L ip0 ⟨.indirect, f⟩ =
      some (fold L (fold L (ip0 + f.toNat) +
        ((m.read (fold L (ip0 + f.toNat))).extractLsb' 0 12).toNat)) ∧
    operandAddr m L ip0 ⟨.indirect, f⟩ =
      some (fold L (fold L (ip0 + f.toNat) +
        (decodeFields (m.read (fold L (ip0 + f.toNat)))).b.field.toNat))

/-- R118: results depend on bits 11:0 of each operand only and are below 4096; the tests of `jmz`, `djz`
and `cmp` compare whole words. -/
def Obligations.ArithmeticLaw : Prop :=
  ∀ a b : Word,
    (addMod a b).toNat = ((a.extractLsb' 0 12).toNat + (b.extractLsb' 0 12).toNat) % 4096 ∧
    ((subMod a b).toNat : Int) = (((b.extractLsb' 0 12).toNat : Int) - (a.extractLsb' 0 12).toNat) % 4096 ∧
    (subMod a b).toNat = (b.toNat + (4096 - a.toNat % 4096)) % 4096 ∧
    (decMod a).toNat = ((a.extractLsb' 0 12).toNat + 4095) % 4096 ∧
    (addMod a b).toNat < 4096 ∧ (subMod a b).toNat < 4096 ∧ (decMod a).toNat < 4096 ∧
    (isZero a = true ↔ a.toNat = 0) ∧ (differ a b = true ↔ a.toNat ≠ b.toNat)

/-! ### The instructions

Each says which words are the instruction, what the instruction does whenever its required results are
there, with its frame, and that it takes the violation whenever one is missing. -/

/-- R110: `dat` takes the violation whatever its operands are, in every state. -/
def Obligations.DatAlwaysViolates : Prop :=
  (∀ w : Word, (∃ a b, decode w = .dat a b) ↔ w &&& 0xF0000000#32 = 0x00000000#32) ∧
  (∀ (s : State) (a b : Operand), ∃ t, exec (.dat a b) s = .next t ∧
    Violates s t (instrFields (.dat a b)) ∧ writeTarget (.dat a b) s = none) ∧
  (∀ a b : Operand, loadable (encode (.dat a b)) = true ∧
    (a.HasValue → b.HasValue → isValid (decodeFields (encode (.dat a b))) = true))

/-- R57: opcodes 8 to 15 decode, are not valid, are refused by `Encode` and by the loader, and violate
when executed. -/
def Obligations.IllegalOpcodesViolate : Prop :=
  (∀ w : Word, (∃ op a b, decode w = .illegal op a b) ↔ w &&& 0x80000000#32 = 0x80000000#32) ∧
  (∀ (s : State) (op : Opcode) (a b : Operand), 8 ≤ op.toNat → ∃ t, exec (.illegal op a b) s = .next t ∧
    Violates s t (instrFields (.illegal op a b)) ∧ writeTarget (.illegal op a b) s = none) ∧
  (∀ w : Word, w &&& 0x80000000#32 = 0x80000000#32 →
    isValid (decodeFields w) = false ∧ loadable w = false) ∧
  (∀ opcode modeA fieldA modeB fieldB : Int, 8 ≤ opcode →
    ∃ e, encodeArgs opcode modeA fieldA modeB fieldB = .error e)

/-- R115: `mov` copies all 32 bits of A's value to B's address and advances by 1. -/
def Obligations.MovCopiesTheWholeWord : Prop :=
  (∀ w : Word, (∃ a b, decode w = .mov a b) ↔ w &&& 0xF0000000#32 = 0x10000000#32) ∧
  (∀ (s : State) (a b : Operand) (va : Word) (db : Nat), s.violated = false →
    s.valueOf a = some va → s.addrOf b = some db →
    ∃ t, exec (.mov a b) s = .next t ∧ OneCellWritten s t db va ∧
      t.ip s.turn = incr s.coreLen (s.ip s.turn) 1 ∧ TickFrame s t (instrFields (.mov a b)) ∧
      writeTarget (.mov a b) s = some db) ∧
  (∀ (s : State) (a b : Operand), ¬a.HasValue ∨ ¬b.HasAddr →
    ∃ t, exec (.mov a b) s = .next t ∧ Violates s t (instrFields (.mov a b)) ∧
      writeTarget (.mov a b) s = none)

/-- R116: `add` writes `(a + b) mod 4096` as the whole cell at B's address and advances by 1. -/
def Obligations.AddWritesTheSum : Prop :=
  (∀ w : Word, (∃ a b, decode w = .add a b) ↔ w &&& 0xF0000000#32 = 0x20000000#32) ∧
  (∀ (s : State) (a b : Operand) (va vb : Word) (db : Nat), s.violated = false →
    s.valueOf a = some va → s.valueOf b = some vb → s.addrOf b = some db →
    ∃ t, exec (.add a b) s = .next t ∧
      OneCellWritten s t db (BitVec.ofNat 32 ((va.toNat + vb.toNat) % 4096)) ∧
      t.ip s.turn = incr s.coreLen (s.ip s.turn) 1 ∧ TickFrame s t (instrFields (.add a b)) ∧
      writeTarget (.add a b) s = some db) ∧
  (∀ (s : State) (a b : Operand), ¬a.HasValue ∨ ¬b.HasAddr →
    ∃ t, exec (.add a b) s = .next t ∧ Violates s t (instrFields (.add a b)) ∧
      writeTarget (.add a b) s = none)

/-- R117: `sub` writes B minus A modulo 4096 as the whole cell at B's address and advances by 1. -/
def Obligations.SubWritesTheDifference : Prop :=
  (∀ w : Word, (∃ a b, decode w = .sub a b) ↔ w &&& 0xF0000000#32 = 0x30000000#32) ∧
  (∀ (s : State) (a b : Operand) (va vb : Word) (db : Nat), s.violated = false →
    s.valueOf a = some va → s.valueOf b = some vb → s.addrOf b = some db →
    ∃ t, exec (.sub a b) s = .next t ∧
      OneCellWritten s t db (BitVec.ofNat 32 ((vb.toNat + (4096 - va.toNat % 4096)) % 4096)) ∧
      t.ip s.turn = incr s.coreLen (s.ip s.turn) 1 ∧ TickFrame s t (instrFields (.sub a b)) ∧
      writeTarget (.sub a b) s = some db) ∧
  (∀ (s : State) (a b : Operand), ¬a.HasValue ∨ ¬b.HasAddr →
    ∃ t, exec (.sub a b) s = .next t ∧ Violates s t (instrFields (.sub a b)) ∧
      writeTarget (.sub a b) s = none)

/-- R130: `jmp` sets the pointer to B's address, whatever operand A is. -/
def Obligations.JmpGoesToB : Prop :=
  (∀ w : Word, (∃ a b, decode w = .jmp a b) ↔ w &&& 0xF0000000#32 = 0x40000000#32) ∧
  (∀ (s : State) (a b : Operand) (db : Nat), s.violated = false → s.addrOf b = some db →
    ∃ t, exec (.jmp a b) s = .next t ∧ SameMemory s t ∧ t.ip s.turn = db ∧
      TickFrame s t (instrFields (.jmp a b)) ∧ writeTarget (.jmp a b) s = none) ∧
  (∀ (s : State) (a b : Operand), ¬b.HasAddr →
    ∃ t, exec (.jmp a b) s = .next t ∧ Violates s t (instrFields (.jmp a b)) ∧
      writeTarget (.jmp a b) s = none)

/-- R131: `jmz` jumps to B's address if all 32 bits of A's value are zero, else advances by 1. -/
def Obligations.JmzTestsTheWholeWord : Prop :=
  (∀ w : Word, (∃ a b, decode w = .jmz a b) ↔ w &&& 0xF0000000#32 = 0x50000000#32) ∧
  (∀ (s : State) (a b : Operand) (va : Word) (db : Nat), s.violated = false →
    s.valueOf a = some va → s.addrOf b = some db →
    ∃ t, exec (.jmz a b) s = .next t ∧ SameMemory s t ∧
      t.ip s.turn = (if va.toNat = 0 then db else incr s.coreLen (s.ip s.turn) 1) ∧
      TickFrame s t (instrFields (.jmz a b)) ∧ writeTarget (.jmz a b) s = none) ∧
  (∀ (s : State) (a b : Operand), ¬a.HasValue ∨ ¬b.HasAddr →
    ∃ t, exec (.jmz a b) s = .next t ∧ Violates s t (instrFields (.jmz a b)) ∧
      writeTarget (.jmz a b) s = none)

/-- R132: `djz` writes the decremented cell at A's address, whole, whether or not it jumps, and jumps to
B's address, resolved before the write, if the written value is zero. -/
def Obligations.DjzDecrementsAndTests : Prop :=
  (∀ w : Word, (∃ a b, decode w = .djz a b) ↔ w &&& 0xF0000000#32 = 0x60000000#32) ∧
  (∀ (s : State) (a b : Operand) (da db : Nat), s.violated = false →
    s.addrOf a = some da → s.addrOf b = some db →
    ∃ t, exec (.djz a b) s = .next t ∧
      OneCellWritten s t da (BitVec.ofNat 32 (((s.mem.read da).toNat + 4095) % 4096)) ∧
      t.ip s.turn = (if ((s.mem.read da).toNat + 4095) % 4096 = 0 then db
        else incr s.coreLen (s.ip s.turn) 1) ∧
      TickFrame s t (instrFields (.djz a b)) ∧ writeTarget (.djz a b) s = some da) ∧
  (∀ (s : State) (a b : Operand), ¬a.HasAddr ∨ ¬b.HasAddr →
    ∃ t, exec (.djz a b) s = .next t ∧ Violates s t (instrFields (.djz a b)) ∧
      writeTarget (.djz a b) s = none)

/-- R133: `cmp` advances by 2 if the whole values differ, by 1 if they are equal. -/
def Obligations.CmpSkipsWhenUnequal : Prop :=
  (∀ w : Word, (∃ a b, decode w = .cmp a b) ↔ w &&& 0xF0000000#32 = 0x70000000#32) ∧
  (∀ (s : State) (a b : Operand) (va vb : Word), s.violated = false →
    s.valueOf a = some va → s.valueOf b = some vb →
    ∃ t, exec (.cmp a b) s = .next t ∧ SameMemory s t ∧
      t.ip s.turn = (if va.toNat = vb.toNat then incr s.coreLen (s.ip s.turn) 1
        else incr s.coreLen (s.ip s.turn) 2) ∧
      TickFrame s t (instrFields (.cmp a b)) ∧ writeTarget (.cmp a b) s = none) ∧
  (∀ (s : State) (a b : Operand), ¬a.HasValue ∨ ¬b.HasValue →
    ∃ t, exec (.cmp a b) s = .next t ∧ Violates s t (instrFields (.cmp a b)) ∧
      writeTarget (.cmp a b) s = none)

/-! ### The step -/

/-- A step that may take a tick runs the instruction its active pointer's cell decodes to; around `exec`
it only marks that play has begun (the model's own field, log entry 3). -/
def Obligations.StepRunsTheDecodedInstruction : Prop :=
  ∀ (s : State) (i : Instr), s.Ready → decode (s.mem.read (s.ip s.turn)) = i →
    i.WellFormed ∧ step s = exec i { s with started := true }

/-- R81: on an ended machine `Update` changes nothing and returns false, any number of times; no write
event is emitted. -/
def Obligations.EndedUpdateIsNoOp : Prop :=
  ∀ s : State, s.ended = true →
    updateReturns s = false ∧ onWriteEvent s = none ∧
      ∀ k : Nat, runFor k s = .next s

/-- `Update` before both pointers are set is refused, a started play refuses loader commands
(`70_reset_and_hazards.md` section 3), and before it an address of `L` or more is refused
(`10_state.md` section 9). The marks it speaks of are the model's own fields (log entry 3). -/
def Obligations.InterfaceMisuseIsRefused : Prop :=
  (∀ s : State, s.ended = false → s.ipASet = false ∨ s.ipBSet = false →
    step s = .refused .pointersNotSet) ∧
  (∀ s t : State, s.Ready → step s = .next t → t.started = true) ∧
  (∀ (s : State) (addr : Nat) (w : Word) (p : ProgramId), s.started = true →
    runCommand (.loadWrite addr w) s = .refused .loadAfterStart ∧
    runCommand (.loadSetIP p addr) s = .refused .loadAfterStart) ∧
  (∀ (s : State) (addr : Nat) (w : Word) (p : ProgramId), s.started = false → s.coreLen ≤ addr →
    runCommand (.loadWrite addr w) s = .refused (.addressOutsideCore addr) ∧
    runCommand (.loadSetIP p addr) s = .refused (.addressOutsideCore addr))

/-- The two loader commands before the first `Update`: what each writes and what it leaves
(`10_state.md` section 9). -/
def Obligations.LoaderCommandsWriteOneElement : Prop :=
  ∀ (s : State) (addr : Nat), s.started = false → addr < s.coreLen →
    (∀ w : Word, ∃ t, runCommand (.loadWrite addr w) s = .next t ∧ OneCellWritten s t addr w ∧
      t = { s with mem := t.mem }) ∧
    (∀ p : ProgramId, ∃ t, runCommand (.loadSetIP p addr) s = .next t ∧ t.ip p = addr ∧
      t.ip (other p) = s.ip (other p) ∧
      (p = .A → t = { s with ipA := addr, ipASet := true }) ∧
      (p = .B → t = { s with ipB := addr, ipBSet := true }))

/-- R24: what `Reset(L)` leaves, from any state: `turn` A, the flags clear, no winner, no `last`, every
cell 0, and `Update` refused because no pointer is set. -/
def Obligations.ResetValues : Prop :=
  ∀ (s : State) (L : Nat), 0 < L → ∃ t, runCommand (.reset L) s = .next t ∧
    t.turn = .A ∧ t.violated = false ∧ t.ended = false ∧ t.winner = none ∧ t.last = none ∧
    (∀ addr, t.mem.read addr = 0x00000000#32) ∧ t.coreLen = L ∧
    step t = .refused .pointersNotSet

/-- The state after `Reset(L)` meets the invariant, for every `L >= 1`. That its pointers do rests on
the model's choice of 0 for them (log entry 2); the spec gives them no value. -/
def Obligations.ResetMeetsTheInvariant : Prop :=
  (∀ L : Nat, 0 < L → (State.resetOf L).Inv) ∧ State.reset.Inv

/-- The invariant of `10_state.md` section 11, with the canonical form of the memory, is kept by every
step from every state that has it, reachable or not. -/
def Obligations.StepKeepsTheInvariant : Prop :=
  ∀ s t : State, s.Inv → step s = .next t → t.Inv ∧ t.coreLen = s.coreLen

/-- R25: along every run from a launch state the pointers are in the core, every address read or written
is, the three end marks agree, and an ended state never changes again. -/
def Obligations.LaunchRunsKeepR25 : Prop :=
  ∀ (s t : State) (n : Nat), s.Launch → runFor n s = .next t →
    (t.ipA < s.coreLen ∧ t.ipB < s.coreLen ∧ t.coreLen = s.coreLen) ∧
    (t.activeIp < t.coreLen ∧
      (∀ f : Field, relativeAddr t.coreLen (t.ip t.turn) f < t.coreLen) ∧
      (∀ (o : Operand) (d : Nat), t.addrOf o = some d → d < t.coreLen) ∧
      (∀ d : Nat, onWriteEvent t = some d → d < t.coreLen)) ∧
    (t.ended = t.violated ∧ t.ended = t.winner.isSome) ∧
    (t.ended = true → ∀ k : Nat, runFor k t = .next t)

/-- Every state with the invariant and both pointers set runs for ever: no fault, no refusal, whatever
the words in memory are (`60_exceptions.md` section 4, totality). -/
def Obligations.LoadedMachineNeverStops : Prop :=
  ∀ s : State, s.Inv → s.pointersSet = true → ∀ n : Nat, SafeFor n s

/-- From every state with the invariant and both pointers set, a step answers a next state that has both
again, whatever the words in memory are (`60_exceptions.md` section 4, totality). -/
def Obligations.LoadedStepAnswersNext : Prop :=
  ∀ s : State, s.Inv → s.pointersSet = true →
    ∃ t, step s = .next t ∧ t.Inv ∧ t.pointersSet = true ∧ t.coreLen = s.coreLen

/-- R95: every tick flips `turn`, the violating one included, whose `turn` then names the winner; while
running, program A executes ticks 1, 3, 5, ... -/
def Obligations.TurnAlternates : Prop :=
  (∀ s t : State, s.ended = false → step s = .next t → t.turn = other s.turn) ∧
  (∀ s t : State, s.ended = false → s.violated = false → step s = .next t → t.violated = true →
    t.winner = some t.turn) ∧
  (∀ (s t : State) (n : Nat), s.turn = .A → runFor n s = .next t →
    t.ended = false → t.turn = if n % 2 = 0 then .A else .B)

/-- A tick neither writes nor reads the inactive program's pointer (`10_state.md` section 3). -/
def Obligations.InactivePointerUntouched : Prop :=
  ∀ s t : State, s.Ready → step s = .next t →
    t.ip (other s.turn) = s.ip (other s.turn) ∧
    ∀ addr : Nat, step (s.setIp (other s.turn) addr) = .next (t.setIp (other s.turn) addr)

/-- The active pointer changes in the ways of `10_state.md` section 3 and no other: by 1, by 2 in `cmp`,
to B's address in a jump, not at all in a violating tick. -/
def Obligations.ActivePointerChanges : Prop :=
  ∀ s t : State, s.Ready → s.violated = false → step s = .next t →
    (t.violated = true ∧ t.ip s.turn = s.ip s.turn) ∨
    (t.violated = false ∧ t.ip s.turn = incr s.coreLen (s.ip s.turn) 1) ∨
    (t.violated = false ∧ t.ip s.turn = incr s.coreLen (s.ip s.turn) 2 ∧
      ∃ a b, s.fetchInstr = .cmp a b) ∨
    (t.violated = false ∧ ∃ a b d, s.addrOf b = some d ∧ t.ip s.turn = d ∧
      (s.fetchInstr = .jmp a b ∨ s.fetchInstr = .jmz a b ∨ s.fetchInstr = .djz a b))

/-- A tick writes at most the one cell of its write event, only `mov`, `add`, `sub` and `djz` emit one,
and the cell is B's address, or A's for `djz` (`10_state.md` section 1, `20_memory.md` section 4). -/
def Obligations.TickWritesOnlyItsTarget : Prop :=
  ∀ s t : State, s.Ready → s.violated = false → step s = .next t →
    (∀ addr, onWriteEvent s ≠ some addr → t.mem.read addr = s.mem.read addr) ∧
    (∀ d, onWriteEvent s = some d → t.violated = false ∧
      ∃ a b, ((s.fetchInstr = .mov a b ∨ s.fetchInstr = .add a b ∨ s.fetchInstr = .sub a b) ∧
          s.addrOf b = some d) ∨ (s.fetchInstr = .djz a b ∧ s.addrOf a = some d))

/-- R154: a violating tick changes `violated`, `ended`, `winner`, `turn` and `last` and nothing else the
spec gives the machine; `Update` returns true. -/
def Obligations.ViolationIsPrecise : Prop :=
  ∀ s t : State, s.Ready → s.violated = false → step s = .next t → t.violated = true →
    t = { s with violated := true, ended := true, winner := some (other s.turn), turn := other s.turn,
                 last := some (s.latch (instrFields s.fetchInstr)), started := true } ∧
    t.ip s.turn = s.ip s.turn ∧ updateReturns s = true

/-- A tick violates exactly for the opcodes and modes of the table of `40_tick_and_operands.md` section
6, and then `last` yields a cause label (`60_exceptions.md` section 1). -/
def Obligations.ViolationCausesComplete : Prop :=
  ∀ s t : State, s.Ready → s.violated = false → step s = .next t →
    (t.violated = true ↔ ViolatesByMode s.fetchInstr) ∧
    (t.violated = true ↔ ∃ r c, t.last = some r ∧ violationCause r = some c)

/-- R19: the violating tick names the other program the winner, there is none while running, a winner
never changes until reset, which clears it, and `winner()` reports it. -/
def Obligations.WinnerIsTheOtherProgram : Prop :=
  (∀ s t : State, s.Inv → s.ended = false → step s = .next t →
    (t.violated = true → t.winner = some (other s.turn)) ∧ (t.violated = false → t.winner = none)) ∧
  (∀ (s t : State) (p : ProgramId) (n : Nat), s.Inv → s.winner = some p →
    runFor n s = .next t → t.winner = some p) ∧
  (∀ L : Nat, (State.resetOf L).winner = none) ∧ (∀ s : State, winnerOutput s = s.winner)

/-- No rule of the transition reads `last`: the step does not depend on it (`10_state.md` section 7). -/
def Obligations.LastIsNeverRead : Prop :=
  ∀ (s : State) (x : Option LastTick), s.Ready → step { s with last := x } = step s

/-- R83: every tick records the executing program, its address, the fetched word, its decoded fields and
both operands resolved from the memory before the tick. -/
def Obligations.LastRecordsTheTick : Prop :=
  ∀ s t : State, s.Ready → step s = .next t →
    let w := s.mem.read (s.ip s.turn)
    let ra := resolve s.mem s.coreLen (s.ip s.turn) (decodeFields w).a
    let rb := resolve s.mem s.coreLen (s.ip s.turn) (decodeFields w).b
    t.last = some { p := s.turn, ip0 := s.ip s.turn, w := w, ins := decodeFields w,
                    a := ra.value, addrA := ra.addr, b := rb.value, addrB := rb.addr }

/-- A cell written at one tick is fetched with its new contents at the very next tick (`20_memory.md`
section 4): for every write event, the written word is the one of `mov`, `add`, `sub` or `djz`, and where
the other program's pointer is at the cell, the next step runs what that word decodes to. -/
def Obligations.NextFetchSeesTheWrite : Prop :=
  ∀ (s t : State) (d : Nat), s.Ready → s.violated = false → onWriteEvent s = some d →
    step s = .next t →
    ∃ x, WritesWord s d x ∧ t.mem.read d = x ∧
      (t.activeIp = d → t.fetchWord = x ∧ step t = exec (decode x) t)

/-- No step makes a cell with an opcode above 7, so where there is none the next instruction is never
illegal (`70_reset_and_hazards.md` section 2, the consequence of the loader's check). -/
def Obligations.NoIllegalCellIsMade : Prop :=
  ∀ s t : State, s.NoIllegalCell → step s = .next t →
    t.NoIllegalCell ∧ ∀ op a b, t.fetchInstr ≠ .illegal op a b

/-- Where `L > 4096`, no operand address and no pointer a completed tick leaves is 4096 or more
(`70_reset_and_hazards.md` section 3, core lengths above 4096). -/
def Obligations.HighCellsAreNeverReached : Prop :=
  ∀ s t : State, 4096 < s.coreLen → s.Ready → s.violated = false → step s = .next t →
    (∀ (o : Operand) (d : Nat), s.addrOf o = some d → d < 4096) ∧
    (t.violated = false → t.ip s.turn < 4096) ∧
    (∀ addr, 4096 ≤ addr → t.mem.read addr = s.mem.read addr)

/-! ### Memory, observer -/

/-- Equal memories are equal lists: two canonical lists that read alike everywhere are the same (the
model's canonical form, log entry 4). -/
def Obligations.CanonicalMemoryIsUnique : Prop :=
  ∀ m n : Memory, m.wf → n.wf → (∀ addr, m.read addr = n.read addr) → m = n

/-- The observer's five outputs (`10_state.md` section 9) and the display of a field (`30_encoding.md`
section 7). That opcodes 8 to 15 show no mnemonic is the model's choice (log entry 18). -/
def Obligations.ObserverOutputs : Prop :=
  (∀ s : State, (memorySnapshot s).length = s.coreLen ∧
    (∀ addr, addr < s.coreLen → (memorySnapshot s)[addr]? = some (s.mem.read addr)) ∧
    activeIpOutput s = (s.turn, s.ip s.turn) ∧ isEndedOutput s = s.ended ∧ winnerOutput s = s.winner) ∧
  (∀ s : State, (lastDecodedInstruction s = none ↔ s.last = none) ∧
    ∀ t : LastTick, s.last = some t → ∃ d, lastDecodedInstruction s = some d ∧
      d.mnemonic = ["dat", "mov", "add", "sub", "jmp", "jmz", "djz", "cmp"][t.ins.opcode.toNat]? ∧
      d.modeA = t.ins.a.mode ∧ d.fieldA = displayField t.ins.a.field ∧
      d.modeB = t.ins.b.mode ∧ d.fieldB = displayField t.ins.b.field) ∧
  (∀ f : Field, (f.toNat < 3968 → displayField f = (f.toNat : Int)) ∧
    (3968 ≤ f.toNat → displayField f = (f.toNat : Int) - 4096))

/-! ### The surrounding software -/

/-- R186: the two loaded regions never meet. -/
def Obligations.LoadedRegionsNeverMeet : Prop :=
  ∀ L lenA lenB baseA r i j : Nat, lenA + lenB < L → r < L - lenA - lenB → i < lenA → j < lenB →
    (baseA + i) % L ≠ (baseB L baseA lenA r + j) % L

/-- R183 to R185: a load that succeeds makes a launch state with both programs in place, the reset fill
elsewhere, and both pointers at their entry points. -/
def Obligations.LoadMakesTheLaunchState : Prop :=
  ∀ (L : Nat) (A B : Warrior) (baseA r : Nat) (s : State), load L A B baseA r = .ok s →
    s.Launch ∧ s.coreLen = L ∧ s.started = false ∧ s.NoIllegalCell ∧
    (∀ (i : Nat) (w : Word), A.words[i]? = some w → s.mem.read ((baseA + i) % L) = w) ∧
    (∀ (j : Nat) (w : Word), B.words[j]? = some w →
      s.mem.read (((baseA + A.words.length + r) % L + j) % L) = w) ∧
    (∀ addr, (∀ i, i < A.words.length → addr ≠ (baseA + i) % L) →
      (∀ j, j < B.words.length → addr ≠ ((baseA + A.words.length + r) % L + j) % L) →
      s.mem.read addr = 0x00000000#32) ∧
    s.ip .A = (baseA + A.offset) % L ∧
    s.ip .B = ((baseA + A.words.length + r) % L + B.offset) % L

/-- When a load fails and with what position, and that it succeeds otherwise for every draw in range
(`70_reset_and_hazards.md` section 2, `60_exceptions.md` section 10). That capacity is tested before the
opcodes, and that the first offending word is reported, A's before B's, is the model's choice
(log entry 13). -/
def Obligations.LoadFailures : Prop :=
  ∀ (L : Nat) (A B : Warrior) (baseA r : Nat),
    (load L A B baseA r = .error .capacity ↔ L ≤ A.words.length + B.words.length) ∧
    (A.words.length + B.words.length < L →
      ((∃ p i w, load L A B baseA r = .error (.invalidInstruction p i w)) ↔
        ∃ w, w ∈ A.words ++ B.words ∧ 8 ≤ (decodeFields w).opcode.toNat) ∧
      (∀ (i : Nat) (w : Word),
        (load L A B baseA r = .error (.invalidInstruction .A i w) ↔ FirstIllegalWord A.words i w) ∧
        (load L A B baseA r = .error (.invalidInstruction .B i w) ↔
          (∀ v, v ∈ A.words → (decodeFields v).opcode.toNat ≤ 7) ∧ FirstIllegalWord B.words i w)) ∧
      ((∀ w, w ∈ A.words ++ B.words → (decodeFields w).opcode.toNat ≤ 7) → baseA < L →
        r < L - A.words.length - B.words.length → ∃ s, load L A B baseA r = .ok s))

/-- An operand token (`30_encoding.md` section 6): a literal in the open range folds into `[0, 4095]` with
the mode of its prefix, and a literal outside it is the `RangeError` of its line. -/
def Obligations.LiteralsFold : Prop :=
  (∀ i : Int, -4096 < i → i < 4096 → 0 ≤ foldLiteral i ∧ foldLiteral i ≤ 4095 ∧
    foldLiteral i = i % 4096) ∧
  (∀ (line : Nat) (tok : List Char) (i : Int), parseInt (splitPrefix tok).2 = some i →
    (parseOperand line tok = .error (.range line) ↔ i ≤ -4096 ∨ 4096 ≤ i)) ∧
  (∀ (line : Nat) (digits : List Char) (i : Int), parseInt digits = some i → -4096 < i → i < 4096 →
    parseOperand line ('#' :: digits) = .ok (0, foldLiteral i) ∧
    parseOperand line digits = .ok (1, foldLiteral i) ∧
    parseOperand line ('@' :: digits) = .ok (2, foldLiteral i))

/-- Whatever the text, the assembler never fails in `Encode`; when it succeeds the entry offset is at
most the length, and every word is valid and loads (`30_encoding.md` section 6). -/
def Obligations.AssembledProgramsAreLoadable : Prop :=
  ∀ text : List Char,
    (∀ line, assembleChars text ≠ .error (.encoding line)) ∧
    (∀ p : Warrior, assembleChars text = .ok p → p.offset ≤ p.words.length ∧
      ∀ w, w ∈ p.words → isValid (decodeFields w) = true ∧ loadable w = true)
end

