-- ==== Sys2Proof/Laws/Codec.lean ====
section
/-! SUPPORT. The small lemmas of the codec. -/

namespace Sys2Proof

/-- A mode survives its two bits. -/
@[simp] theorem modeOfBits_modeBits (m : Mode) : modeOfBits (modeBits m) = m := by cases m <;> rfl

/-- Two bits survive their mode: no two spellings share a mode. -/
@[simp] theorem modeBits_modeOfBits (b : BitVec 2) : modeBits (modeOfBits b) = b := by
  revert b; decide

/-- The opcode stands in bits 31:28 of the layout (`30_encoding.md` R51). -/
theorem encodeFields_opcode (f : Fields) : (encodeFields f).extractLsb' 28 4 = f.opcode := by
  ext k hk
  simp [encodeFields]
  grind

end Sys2Proof
end

