-- ==== Sys2Proof/Laws/Flags.lean ====
section
/-! SUPPORT. What the arithmetic and the tests answer, as numbers. -/

namespace Sys2Proof.Machine

theorem addMod_toNat (a b : Word) : (addMod a b).toNat = (a.toNat + b.toNat) % 4096 := by
  simp only [addMod, BitVec.toNat_ofNat]
  omega

theorem subMod_toNat (a b : Word) :
    ((subMod a b).toNat : Int) = ((b.toNat : Int) - (a.toNat : Int)) % 4096 := by
  simp only [subMod, BitVec.toNat_ofInt]
  omega

theorem decMod_toNat (v : Word) : (decMod v).toNat = (v.toNat + 4095) % 4096 := by
  simp only [decMod, BitVec.toNat_ofInt]
  omega

theorem isZero_iff (v : Word) : isZero v = true ↔ v.toNat = 0 := by
  simp [isZero, ← BitVec.toNat_inj]

theorem differ_iff (a b : Word) : differ a b = true ↔ a.toNat ≠ b.toNat := by
  simp [differ, ← BitVec.toNat_inj]

end Sys2Proof.Machine
end

