-- ==== Sys2Proof/Laws/Fold.lean ====
section
/-! SUPPORT. What the address functions can answer: an address of the core. -/

namespace Sys2Proof.Machine

theorem fold_lt {L : Nat} (hL : 0 < L) (x : Int) : fold L x < L := Nat.mod_lt _ hL

/-- On a natural number the floor modulus is the ordinary one. -/
theorem fold_natCast (L n : Nat) : fold L (n : Int) = n % 4096 % L := by
  unfold fold
  congr 1

theorem incr_lt {L : Nat} (hL : 0 < L) (ip0 : Nat) (delta : Int) : incr L ip0 delta < L :=
  fold_lt hL _

theorem relativeAddr_lt {L : Nat} (hL : 0 < L) (ip0 : Nat) (f : Field) : relativeAddr L ip0 f < L :=
  fold_lt hL _

theorem indirectAddr_lt {L : Nat} (hL : 0 < L) (m : Memory) (ip0 : Nat) (f : Field) :
    indirectAddr m L ip0 f < L :=
  fold_lt hL _

/-- Every address an operand resolves to is an address of the core (`10_state.md` R25(b)). -/
theorem operandAddr_lt {m : Memory} {L ip0 d : Nat} {o : Operand} (hL : 0 < L)
    (h : operandAddr m L ip0 o = some d) : d < L := by
  unfold operandAddr at h
  split at h
  · simp at h
  · obtain rfl := Option.some.inj h
    exact relativeAddr_lt hL _ _
  · obtain rfl := Option.some.inj h
    exact indirectAddr_lt hL _ _ _
  · simp at h

/-- Where an operand has an address, its value is the word there. -/
theorem operandValue_of_addr {m : Memory} {L ip0 d : Nat} {o : Operand}
    (h : operandAddr m L ip0 o = some d) : operandValue m L ip0 o = some (m.read d) := by
  unfold operandAddr at h
  unfold operandValue
  split at h <;> simp_all

end Sys2Proof.Machine
end

