-- ==== Sys2Proof/Laws/Memory.lean ====
section
/-! SUPPORT. The memory laws: what a read gives after a write, and that a write keeps the canonical form
and the range of addresses. The read laws hold of every list, canonical or not. -/

namespace Sys2Proof.Machine

@[simp] theorem Memory.read_nil (addr : Nat) : Memory.read [] addr = Config.coreFill := rfl

theorem Memory.read_cons (c : CoreCell) (m : Memory) (addr : Nat) :
    Memory.read (c :: m) addr = if addr = c.1 then c.2 else Memory.read m addr := rfl

theorem Memory.read_erase_same (m : Memory) (addr : Nat) :
    Memory.read (Memory.erase m addr) addr = Config.coreFill := by
  induction m with
  | nil => rfl
  | cons c m ih =>
    simp only [Memory.erase]
    split
    · exact ih
    · rename_i h
      simp [Memory.read_cons, h, ih]

theorem Memory.read_erase_other (m : Memory) {addr other : Nat} (h : other ≠ addr) :
    Memory.read (Memory.erase m addr) other = Memory.read m other := by
  induction m with
  | nil => rfl
  | cons c m ih =>
    simp only [Memory.erase]
    split
    · rename_i hk
      simp [Memory.read_cons, ← hk, h, ih]
    · simp [Memory.read_cons, ih]

theorem Memory.read_insert_same (m : Memory) (addr : Nat) (x : Word)
    (h : ∀ c ∈ m, c.1 ≠ addr) : Memory.read (Memory.insert m addr x) addr = x := by
  induction m with
  | nil => simp [Memory.insert, Memory.read_cons]
  | cons c m ih =>
    simp only [Memory.insert]
    split
    · simp [Memory.read_cons]
    · have hc : addr ≠ c.1 := fun e => h c (by simp) e.symm
      simp [Memory.read_cons, hc, ih (fun d hd => h d (by simp [hd]))]

theorem Memory.read_insert_other (m : Memory) {addr other : Nat} (x : Word) (h : other ≠ addr) :
    Memory.read (Memory.insert m addr x) other = Memory.read m other := by
  induction m with
  | nil => simp [Memory.insert, Memory.read_cons, h]
  | cons c m ih =>
    simp only [Memory.insert]
    split
    · simp [Memory.read_cons, h]
    · simp [Memory.read_cons, ih]

theorem Memory.mem_erase {m : Memory} {addr : Nat} {c : CoreCell} (h : c ∈ Memory.erase m addr) :
    c ∈ m ∧ c.1 ≠ addr := by
  induction m with
  | nil => simp [Memory.erase] at h
  | cons d m ih =>
    simp only [Memory.erase] at h
    split at h
    · exact ⟨List.mem_cons_of_mem _ (ih h).1, (ih h).2⟩
    · rename_i hk
      rcases List.mem_cons.1 h with rfl | h
      · exact ⟨by simp, fun e => hk e.symm⟩
      · exact ⟨List.mem_cons_of_mem _ (ih h).1, (ih h).2⟩

theorem Memory.mem_insert {m : Memory} {addr : Nat} {x : Word} {c : CoreCell}
    (h : c ∈ Memory.insert m addr x) : c = (addr, x) ∨ c ∈ m := by
  induction m with
  | nil => simpa [Memory.insert] using h
  | cons d m ih =>
    simp only [Memory.insert] at h
    split at h
    · simpa using h
    · rcases List.mem_cons.1 h with rfl | h
      · exact .inr (by simp)
      · exact (ih h).imp id (List.mem_cons_of_mem _)

/-- A read of the written cell gives the written word. -/
@[simp] theorem Memory.read_write_same (m : Memory) (addr : Nat) (x : Word) :
    Memory.read (Memory.write m addr x) addr = x := by
  unfold Memory.write
  split
  · rename_i h
    rw [Memory.read_erase_same, h]
  · exact Memory.read_insert_same _ _ _ (fun c hc => (Memory.mem_erase hc).2)

/-- Every other cell reads as before. -/
theorem Memory.read_write_other (m : Memory) {addr other : Nat} (x : Word) (h : other ≠ addr) :
    Memory.read (Memory.write m addr x) other = Memory.read m other := by
  unfold Memory.write
  split
  · exact Memory.read_erase_other m h
  · rw [Memory.read_insert_other _ x h, Memory.read_erase_other m h]

theorem Memory.read_write (m : Memory) (addr other : Nat) (x : Word) :
    Memory.read (Memory.write m addr x) other = if other = addr then x else Memory.read m other := by
  split
  · rename_i h
    rw [h, Memory.read_write_same]
  · rename_i h
    exact Memory.read_write_other m x h

theorem Memory.wf_nil : Memory.wf [] := by simp [Memory.wf]

theorem Memory.erase_pairwise {m : Memory} (addr : Nat) (h : m.Pairwise (fun c d => c.1 < d.1)) :
    (Memory.erase m addr).Pairwise (fun c d => c.1 < d.1) := by
  induction m with
  | nil => simp [Memory.erase]
  | cons c m ih =>
    rw [List.pairwise_cons] at h
    simp only [Memory.erase]
    split
    · exact ih h.2
    · exact List.pairwise_cons.2 ⟨fun d hd => h.1 d (Memory.mem_erase hd).1, ih h.2⟩

theorem Memory.insert_pairwise {m : Memory} (addr : Nat) (x : Word)
    (hne : ∀ c ∈ m, c.1 ≠ addr) (h : m.Pairwise (fun c d => c.1 < d.1)) :
    (Memory.insert m addr x).Pairwise (fun c d => c.1 < d.1) := by
  induction m with
  | nil => simp [Memory.insert]
  | cons c m ih =>
    rw [List.pairwise_cons] at h
    simp only [Memory.insert]
    split
    · rename_i hlt
      refine List.pairwise_cons.2 ⟨fun d hd => ?_, List.pairwise_cons.2 h⟩
      rcases List.mem_cons.1 hd with rfl | hd
      · exact hlt
      · exact Nat.lt_trans hlt (h.1 d hd)
    · rename_i hlt
      refine List.pairwise_cons.2
        ⟨fun d hd => ?_, ih (fun d hd => hne d (List.mem_cons_of_mem _ hd)) h.2⟩
      rcases Memory.mem_insert hd with rfl | hd
      · exact lt_of_le_of_ne (Nat.le_of_not_lt hlt) (hne c (by simp))
      · exact h.1 d hd

/-- A write keeps the canonical form. -/
theorem Memory.write_wf {m : Memory} (addr : Nat) (x : Word) (h : Memory.wf m) :
    Memory.wf (Memory.write m addr x) := by
  unfold Memory.write
  split
  · exact ⟨Memory.erase_pairwise addr h.1, fun c hc => h.2 c (Memory.mem_erase hc).1⟩
  · rename_i hx
    refine ⟨Memory.insert_pairwise addr x (fun c hc => (Memory.mem_erase hc).2)
      (Memory.erase_pairwise addr h.1), fun c hc => ?_⟩
    rcases Memory.mem_insert hc with rfl | hc
    · exact hx
    · exact h.2 c (Memory.mem_erase hc).1

/-- A write inside the core lists only cells of the core. -/
theorem Memory.write_inCore {m : Memory} {L addr : Nat} (x : Word) (h : Memory.inCore m L)
    (ha : addr < L) : Memory.inCore (Memory.write m addr x) L := by
  intro c hc
  unfold Memory.write at hc
  split at hc
  · exact h c (Memory.mem_erase hc).1
  · rcases Memory.mem_insert hc with rfl | hc
    · exact ha
    · exact h c (Memory.mem_erase hc).1

/-- The empty list is a core that reads the fill everywhere, in canonical form. -/
theorem Memory.inCore_nil (L : Nat) : Memory.inCore [] L := by simp [Memory.inCore]

end Sys2Proof.Machine
end

