-- ==== Sys2Proof/Laws/State.lean ====
section
/-! SUPPORT. One lemma per field per named update of `State`, so that no proof unfolds a record update. -/

namespace Sys2Proof.Machine

variable (s : State) (p : ProgramId)

@[simp] theorem other_other : other (other p) = p := by cases p <;> rfl

@[simp] theorem other_ne : other p ≠ p := by cases p <;> simp [other]

@[simp] theorem ne_other : p ≠ other p := by cases p <;> simp [other]

theorem eq_other_of_ne {p q : ProgramId} (h : q ≠ p) : q = other p := by
  cases p <;> cases q <;> simp_all [other]

/-! ### `setIp` -/

@[simp] theorem setIp_mem (addr : Nat) : (s.setIp p addr).mem = s.mem := by cases p <;> rfl

@[simp] theorem setIp_turn (addr : Nat) : (s.setIp p addr).turn = s.turn := by cases p <;> rfl

@[simp] theorem setIp_violated (addr : Nat) : (s.setIp p addr).violated = s.violated := by cases p <;> rfl

@[simp] theorem setIp_ended (addr : Nat) : (s.setIp p addr).ended = s.ended := by cases p <;> rfl

@[simp] theorem setIp_winner (addr : Nat) : (s.setIp p addr).winner = s.winner := by cases p <;> rfl

@[simp] theorem setIp_last (addr : Nat) : (s.setIp p addr).last = s.last := by cases p <;> rfl

@[simp] theorem setIp_coreLen (addr : Nat) : (s.setIp p addr).coreLen = s.coreLen := by cases p <;> rfl

@[simp] theorem setIp_ipASet (addr : Nat) : (s.setIp p addr).ipASet = s.ipASet := by cases p <;> rfl

@[simp] theorem setIp_ipBSet (addr : Nat) : (s.setIp p addr).ipBSet = s.ipBSet := by cases p <;> rfl

@[simp] theorem setIp_started (addr : Nat) : (s.setIp p addr).started = s.started := by cases p <;> rfl

@[simp] theorem setIp_ip_same (addr : Nat) : (s.setIp p addr).ip p = addr := by cases p <;> rfl

@[simp] theorem setIp_ip_other (addr : Nat) : (s.setIp p addr).ip (other p) = s.ip (other p) := by
  cases p <;> rfl

/-! ### `writeCell` -/

@[simp] theorem writeCell_mem (addr : Nat) (x : Word) : (s.writeCell addr x).mem = Memory.write s.mem addr x := rfl

@[simp] theorem writeCell_ipA (addr : Nat) (x : Word) : (s.writeCell addr x).ipA = s.ipA := rfl

@[simp] theorem writeCell_ipB (addr : Nat) (x : Word) : (s.writeCell addr x).ipB = s.ipB := rfl

@[simp] theorem writeCell_turn (addr : Nat) (x : Word) : (s.writeCell addr x).turn = s.turn := rfl

@[simp] theorem writeCell_violated (addr : Nat) (x : Word) : (s.writeCell addr x).violated = s.violated := rfl

@[simp] theorem writeCell_ended (addr : Nat) (x : Word) : (s.writeCell addr x).ended = s.ended := rfl

@[simp] theorem writeCell_winner (addr : Nat) (x : Word) : (s.writeCell addr x).winner = s.winner := rfl

@[simp] theorem writeCell_last (addr : Nat) (x : Word) : (s.writeCell addr x).last = s.last := rfl

@[simp] theorem writeCell_coreLen (addr : Nat) (x : Word) : (s.writeCell addr x).coreLen = s.coreLen := rfl

@[simp] theorem writeCell_ipASet (addr : Nat) (x : Word) : (s.writeCell addr x).ipASet = s.ipASet := rfl

@[simp] theorem writeCell_ipBSet (addr : Nat) (x : Word) : (s.writeCell addr x).ipBSet = s.ipBSet := rfl

@[simp] theorem writeCell_started (addr : Nat) (x : Word) : (s.writeCell addr x).started = s.started := rfl

@[simp] theorem writeCell_ip (addr : Nat) (x : Word) (q : ProgramId) : (s.writeCell addr x).ip q = s.ip q := by cases q <;> rfl

/-! ### `setLast` -/

@[simp] theorem setLast_mem (t : LastTick) : (s.setLast t).mem = s.mem := rfl

@[simp] theorem setLast_ipA (t : LastTick) : (s.setLast t).ipA = s.ipA := rfl

@[simp] theorem setLast_ipB (t : LastTick) : (s.setLast t).ipB = s.ipB := rfl

@[simp] theorem setLast_turn (t : LastTick) : (s.setLast t).turn = s.turn := rfl

@[simp] theorem setLast_violated (t : LastTick) : (s.setLast t).violated = s.violated := rfl

@[simp] theorem setLast_ended (t : LastTick) : (s.setLast t).ended = s.ended := rfl

@[simp] theorem setLast_winner (t : LastTick) : (s.setLast t).winner = s.winner := rfl

@[simp] theorem setLast_last (t : LastTick) : (s.setLast t).last = some t := rfl

@[simp] theorem setLast_coreLen (t : LastTick) : (s.setLast t).coreLen = s.coreLen := rfl

@[simp] theorem setLast_ipASet (t : LastTick) : (s.setLast t).ipASet = s.ipASet := rfl

@[simp] theorem setLast_ipBSet (t : LastTick) : (s.setLast t).ipBSet = s.ipBSet := rfl

@[simp] theorem setLast_started (t : LastTick) : (s.setLast t).started = s.started := rfl

@[simp] theorem setLast_ip (t : LastTick) (q : ProgramId) : (s.setLast t).ip q = s.ip q := by cases q <;> rfl

/-! ### `flipTurn` -/

@[simp] theorem flipTurn_mem : (s.flipTurn p).mem = s.mem := rfl

@[simp] theorem flipTurn_ipA : (s.flipTurn p).ipA = s.ipA := rfl

@[simp] theorem flipTurn_ipB : (s.flipTurn p).ipB = s.ipB := rfl

@[simp] theorem flipTurn_turn : (s.flipTurn p).turn = other p := rfl

@[simp] theorem flipTurn_violated : (s.flipTurn p).violated = s.violated := rfl

@[simp] theorem flipTurn_ended : (s.flipTurn p).ended = s.ended := rfl

@[simp] theorem flipTurn_winner : (s.flipTurn p).winner = s.winner := rfl

@[simp] theorem flipTurn_last : (s.flipTurn p).last = s.last := rfl

@[simp] theorem flipTurn_coreLen : (s.flipTurn p).coreLen = s.coreLen := rfl

@[simp] theorem flipTurn_ipASet : (s.flipTurn p).ipASet = s.ipASet := rfl

@[simp] theorem flipTurn_ipBSet : (s.flipTurn p).ipBSet = s.ipBSet := rfl

@[simp] theorem flipTurn_started : (s.flipTurn p).started = s.started := rfl

@[simp] theorem flipTurn_ip (q : ProgramId) : (s.flipTurn p).ip q = s.ip q := by cases q <;> rfl

/-! ### `raiseViolation` -/

@[simp] theorem raiseViolation_mem : (s.raiseViolation).mem = s.mem := rfl

@[simp] theorem raiseViolation_ipA : (s.raiseViolation).ipA = s.ipA := rfl

@[simp] theorem raiseViolation_ipB : (s.raiseViolation).ipB = s.ipB := rfl

@[simp] theorem raiseViolation_turn : (s.raiseViolation).turn = s.turn := rfl

@[simp] theorem raiseViolation_violated : (s.raiseViolation).violated = true := rfl

@[simp] theorem raiseViolation_ended : (s.raiseViolation).ended = s.ended := rfl

@[simp] theorem raiseViolation_winner : (s.raiseViolation).winner = s.winner := rfl

@[simp] theorem raiseViolation_last : (s.raiseViolation).last = s.last := rfl

@[simp] theorem raiseViolation_coreLen : (s.raiseViolation).coreLen = s.coreLen := rfl

@[simp] theorem raiseViolation_ipASet : (s.raiseViolation).ipASet = s.ipASet := rfl

@[simp] theorem raiseViolation_ipBSet : (s.raiseViolation).ipBSet = s.ipBSet := rfl

@[simp] theorem raiseViolation_started : (s.raiseViolation).started = s.started := rfl

@[simp] theorem raiseViolation_ip (q : ProgramId) : (s.raiseViolation).ip q = s.ip q := by cases q <;> rfl

/-! ### `endBattle` -/

@[simp] theorem endBattle_mem : (s.endBattle p).mem = s.mem := rfl

@[simp] theorem endBattle_ipA : (s.endBattle p).ipA = s.ipA := rfl

@[simp] theorem endBattle_ipB : (s.endBattle p).ipB = s.ipB := rfl

@[simp] theorem endBattle_turn : (s.endBattle p).turn = s.turn := rfl

@[simp] theorem endBattle_violated : (s.endBattle p).violated = s.violated := rfl

@[simp] theorem endBattle_ended : (s.endBattle p).ended = true := rfl

@[simp] theorem endBattle_winner : (s.endBattle p).winner = some (other p) := rfl

@[simp] theorem endBattle_last : (s.endBattle p).last = s.last := rfl

@[simp] theorem endBattle_coreLen : (s.endBattle p).coreLen = s.coreLen := rfl

@[simp] theorem endBattle_ipASet : (s.endBattle p).ipASet = s.ipASet := rfl

@[simp] theorem endBattle_ipBSet : (s.endBattle p).ipBSet = s.ipBSet := rfl

@[simp] theorem endBattle_started : (s.endBattle p).started = s.started := rfl

@[simp] theorem endBattle_ip (q : ProgramId) : (s.endBattle p).ip q = s.ip q := by cases q <;> rfl

/-! ### `takeViolation` -/

@[simp] theorem takeViolation_mem : (s.takeViolation p).mem = s.mem := rfl

@[simp] theorem takeViolation_ipA : (s.takeViolation p).ipA = s.ipA := rfl

@[simp] theorem takeViolation_ipB : (s.takeViolation p).ipB = s.ipB := rfl

@[simp] theorem takeViolation_turn : (s.takeViolation p).turn = other p := rfl

@[simp] theorem takeViolation_violated : (s.takeViolation p).violated = true := rfl

@[simp] theorem takeViolation_ended : (s.takeViolation p).ended = true := rfl

@[simp] theorem takeViolation_winner : (s.takeViolation p).winner = some (other p) := rfl

@[simp] theorem takeViolation_last : (s.takeViolation p).last = s.last := rfl

@[simp] theorem takeViolation_coreLen : (s.takeViolation p).coreLen = s.coreLen := rfl

@[simp] theorem takeViolation_ipASet : (s.takeViolation p).ipASet = s.ipASet := rfl

@[simp] theorem takeViolation_ipBSet : (s.takeViolation p).ipBSet = s.ipBSet := rfl

@[simp] theorem takeViolation_started : (s.takeViolation p).started = s.started := rfl

@[simp] theorem takeViolation_ip (q : ProgramId) : (s.takeViolation p).ip q = s.ip q := by cases q <;> rfl

/-! ### `beginPlay` -/

@[simp] theorem beginPlay_mem : (s.beginPlay).mem = s.mem := rfl

@[simp] theorem beginPlay_ipA : (s.beginPlay).ipA = s.ipA := rfl

@[simp] theorem beginPlay_ipB : (s.beginPlay).ipB = s.ipB := rfl

@[simp] theorem beginPlay_turn : (s.beginPlay).turn = s.turn := rfl

@[simp] theorem beginPlay_violated : (s.beginPlay).violated = s.violated := rfl

@[simp] theorem beginPlay_ended : (s.beginPlay).ended = s.ended := rfl

@[simp] theorem beginPlay_winner : (s.beginPlay).winner = s.winner := rfl

@[simp] theorem beginPlay_last : (s.beginPlay).last = s.last := rfl

@[simp] theorem beginPlay_coreLen : (s.beginPlay).coreLen = s.coreLen := rfl

@[simp] theorem beginPlay_ipASet : (s.beginPlay).ipASet = s.ipASet := rfl

@[simp] theorem beginPlay_ipBSet : (s.beginPlay).ipBSet = s.ipBSet := rfl

@[simp] theorem beginPlay_started : (s.beginPlay).started = true := rfl

@[simp] theorem beginPlay_ip (q : ProgramId) : (s.beginPlay).ip q = s.ip q := by cases q <;> rfl

/-! ### `placeWord` -/

@[simp] theorem placeWord_mem (w : Word) : (s.placeWord w).mem = Memory.write s.mem s.activeIp w := rfl

@[simp] theorem placeWord_ipA (w : Word) : (s.placeWord w).ipA = s.ipA := rfl

@[simp] theorem placeWord_ipB (w : Word) : (s.placeWord w).ipB = s.ipB := rfl

@[simp] theorem placeWord_turn (w : Word) : (s.placeWord w).turn = s.turn := rfl

@[simp] theorem placeWord_violated (w : Word) : (s.placeWord w).violated = s.violated := rfl

@[simp] theorem placeWord_ended (w : Word) : (s.placeWord w).ended = s.ended := rfl

@[simp] theorem placeWord_winner (w : Word) : (s.placeWord w).winner = s.winner := rfl

@[simp] theorem placeWord_last (w : Word) : (s.placeWord w).last = s.last := rfl

@[simp] theorem placeWord_coreLen (w : Word) : (s.placeWord w).coreLen = s.coreLen := rfl

@[simp] theorem placeWord_ipASet (w : Word) : (s.placeWord w).ipASet = true := rfl

@[simp] theorem placeWord_ipBSet (w : Word) : (s.placeWord w).ipBSet = true := rfl

@[simp] theorem placeWord_started (w : Word) : (s.placeWord w).started = s.started := rfl

@[simp] theorem placeWord_ip (w : Word) (q : ProgramId) : (s.placeWord w).ip q = s.ip q := by cases q <;> rfl

/-! ### `markIpSet` -/

@[simp] theorem markIpSet_mem : (s.markIpSet p).mem = s.mem := by cases p <;> rfl

@[simp] theorem markIpSet_ipA : (s.markIpSet p).ipA = s.ipA := by cases p <;> rfl

@[simp] theorem markIpSet_ipB : (s.markIpSet p).ipB = s.ipB := by cases p <;> rfl

@[simp] theorem markIpSet_turn : (s.markIpSet p).turn = s.turn := by cases p <;> rfl

@[simp] theorem markIpSet_violated : (s.markIpSet p).violated = s.violated := by cases p <;> rfl

@[simp] theorem markIpSet_ended : (s.markIpSet p).ended = s.ended := by cases p <;> rfl

@[simp] theorem markIpSet_winner : (s.markIpSet p).winner = s.winner := by cases p <;> rfl

@[simp] theorem markIpSet_last : (s.markIpSet p).last = s.last := by cases p <;> rfl

@[simp] theorem markIpSet_coreLen : (s.markIpSet p).coreLen = s.coreLen := by cases p <;> rfl

@[simp] theorem markIpSet_started : (s.markIpSet p).started = s.started := by cases p <;> rfl

@[simp] theorem markIpSet_ip (q : ProgramId) : (s.markIpSet p).ip q = s.ip q := by cases q <;> cases p <;> rfl

/-! ### `loadIp` -/

@[simp] theorem loadIp_mem (addr : Nat) : (s.loadIp p addr).mem = s.mem := by cases p <;> rfl

@[simp] theorem loadIp_turn (addr : Nat) : (s.loadIp p addr).turn = s.turn := by cases p <;> rfl

@[simp] theorem loadIp_violated (addr : Nat) : (s.loadIp p addr).violated = s.violated := by cases p <;> rfl

@[simp] theorem loadIp_ended (addr : Nat) : (s.loadIp p addr).ended = s.ended := by cases p <;> rfl

@[simp] theorem loadIp_winner (addr : Nat) : (s.loadIp p addr).winner = s.winner := by cases p <;> rfl

@[simp] theorem loadIp_last (addr : Nat) : (s.loadIp p addr).last = s.last := by cases p <;> rfl

@[simp] theorem loadIp_coreLen (addr : Nat) : (s.loadIp p addr).coreLen = s.coreLen := by cases p <;> rfl

@[simp] theorem loadIp_started (addr : Nat) : (s.loadIp p addr).started = s.started := by cases p <;> rfl

@[simp] theorem loadIp_ip_same (addr : Nat) : (s.loadIp p addr).ip p = addr := by cases p <;> rfl

@[simp] theorem loadIp_ip_other (addr : Nat) : (s.loadIp p addr).ip (other p) = s.ip (other p) := by
  cases p <;> rfl

/-! ### `applyWrite` -/

@[simp] theorem applyWrite_ipA (write : Option (Nat × Word)) : (s.applyWrite write).ipA = s.ipA := by cases write <;> rfl

@[simp] theorem applyWrite_ipB (write : Option (Nat × Word)) : (s.applyWrite write).ipB = s.ipB := by cases write <;> rfl

@[simp] theorem applyWrite_turn (write : Option (Nat × Word)) : (s.applyWrite write).turn = s.turn := by cases write <;> rfl

@[simp] theorem applyWrite_violated (write : Option (Nat × Word)) : (s.applyWrite write).violated = s.violated := by cases write <;> rfl

@[simp] theorem applyWrite_ended (write : Option (Nat × Word)) : (s.applyWrite write).ended = s.ended := by cases write <;> rfl

@[simp] theorem applyWrite_winner (write : Option (Nat × Word)) : (s.applyWrite write).winner = s.winner := by cases write <;> rfl

@[simp] theorem applyWrite_last (write : Option (Nat × Word)) : (s.applyWrite write).last = s.last := by cases write <;> rfl

@[simp] theorem applyWrite_coreLen (write : Option (Nat × Word)) : (s.applyWrite write).coreLen = s.coreLen := by cases write <;> rfl

@[simp] theorem applyWrite_ipASet (write : Option (Nat × Word)) : (s.applyWrite write).ipASet = s.ipASet := by cases write <;> rfl

@[simp] theorem applyWrite_ipBSet (write : Option (Nat × Word)) : (s.applyWrite write).ipBSet = s.ipBSet := by cases write <;> rfl

@[simp] theorem applyWrite_started (write : Option (Nat × Word)) : (s.applyWrite write).started = s.started := by cases write <;> rfl

@[simp] theorem applyWrite_ip (write : Option (Nat × Word)) (q : ProgramId) : (s.applyWrite write).ip q = s.ip q := by cases q <;> cases write <;> rfl

@[simp] theorem applyWrite_none_mem : (s.applyWrite none).mem = s.mem := rfl

@[simp] theorem applyWrite_some_mem (addr : Nat) (x : Word) :
    (s.applyWrite (some (addr, x))).mem = Memory.write s.mem addr x := rfl

/-! ### `applyJump` -/

@[simp] theorem applyJump_mem (jump : Option Nat) : (s.applyJump p jump).mem = s.mem := by cases jump <;> cases p <;> rfl

@[simp] theorem applyJump_turn (jump : Option Nat) : (s.applyJump p jump).turn = s.turn := by cases jump <;> cases p <;> rfl

@[simp] theorem applyJump_violated (jump : Option Nat) : (s.applyJump p jump).violated = s.violated := by cases jump <;> cases p <;> rfl

@[simp] theorem applyJump_ended (jump : Option Nat) : (s.applyJump p jump).ended = s.ended := by cases jump <;> cases p <;> rfl

@[simp] theorem applyJump_winner (jump : Option Nat) : (s.applyJump p jump).winner = s.winner := by cases jump <;> cases p <;> rfl

@[simp] theorem applyJump_last (jump : Option Nat) : (s.applyJump p jump).last = s.last := by cases jump <;> cases p <;> rfl

@[simp] theorem applyJump_coreLen (jump : Option Nat) : (s.applyJump p jump).coreLen = s.coreLen := by cases jump <;> cases p <;> rfl

@[simp] theorem applyJump_ipASet (jump : Option Nat) : (s.applyJump p jump).ipASet = s.ipASet := by cases jump <;> cases p <;> rfl

@[simp] theorem applyJump_ipBSet (jump : Option Nat) : (s.applyJump p jump).ipBSet = s.ipBSet := by cases jump <;> cases p <;> rfl

@[simp] theorem applyJump_started (jump : Option Nat) : (s.applyJump p jump).started = s.started := by cases jump <;> cases p <;> rfl

@[simp] theorem applyJump_ip_other (jump : Option Nat) :
    (s.applyJump p jump).ip (other p) = s.ip (other p) := by cases jump <;> cases p <;> rfl

/-! ### `advance` -/

@[simp] theorem advance_mem (ip0 : Nat) (jump : Option Nat) : (s.advance p ip0 jump).mem = s.mem := by cases jump <;> cases p <;> rfl

@[simp] theorem advance_turn (ip0 : Nat) (jump : Option Nat) : (s.advance p ip0 jump).turn = s.turn := by cases jump <;> cases p <;> rfl

@[simp] theorem advance_violated (ip0 : Nat) (jump : Option Nat) : (s.advance p ip0 jump).violated = s.violated := by cases jump <;> cases p <;> rfl

@[simp] theorem advance_ended (ip0 : Nat) (jump : Option Nat) : (s.advance p ip0 jump).ended = s.ended := by cases jump <;> cases p <;> rfl

@[simp] theorem advance_winner (ip0 : Nat) (jump : Option Nat) : (s.advance p ip0 jump).winner = s.winner := by cases jump <;> cases p <;> rfl

@[simp] theorem advance_last (ip0 : Nat) (jump : Option Nat) : (s.advance p ip0 jump).last = s.last := by cases jump <;> cases p <;> rfl

@[simp] theorem advance_coreLen (ip0 : Nat) (jump : Option Nat) : (s.advance p ip0 jump).coreLen = s.coreLen := by cases jump <;> cases p <;> rfl

@[simp] theorem advance_ipASet (ip0 : Nat) (jump : Option Nat) : (s.advance p ip0 jump).ipASet = s.ipASet := by cases jump <;> cases p <;> rfl

@[simp] theorem advance_ipBSet (ip0 : Nat) (jump : Option Nat) : (s.advance p ip0 jump).ipBSet = s.ipBSet := by cases jump <;> cases p <;> rfl

@[simp] theorem advance_started (ip0 : Nat) (jump : Option Nat) : (s.advance p ip0 jump).started = s.started := by cases jump <;> cases p <;> rfl

@[simp] theorem advance_ip_other (ip0 : Nat) (jump : Option Nat) :
    (s.advance p ip0 jump).ip (other p) = s.ip (other p) := by cases jump <;> cases p <;> rfl

end Sys2Proof.Machine
end

