-- ==== Sys2Proof/Laws/Tick.lean ====
section
/-! SUPPORT. What a tick and a step can do, said once: a tick either takes the violation or completes
with the handler's write and pointer. Statements about instructions cite these and do not unfold the
tick again. -/

namespace Sys2Proof.Machine

/-- Every instruction's meaning is one tick with its own handler. -/
theorem exec_eq (i : Instr) (s : State) :
    exec i s = .next (s.finishTick (s.latch (instrFields i)) (effectOf i s)) := by
  cases i <;> rfl

@[simp] theorem latch_p (s : State) (f : Fields) : (s.latch f).p = s.turn := rfl
@[simp] theorem latch_ip0 (s : State) (f : Fields) : (s.latch f).ip0 = s.ip s.turn := rfl
@[simp] theorem latch_w (s : State) (f : Fields) : (s.latch f).w = s.mem.read (s.ip s.turn) := rfl
@[simp] theorem latch_ins (s : State) (f : Fields) : (s.latch f).ins = f := rfl
@[simp] theorem latch_a (s : State) (f : Fields) :
    (s.latch f).a = operandValue s.mem s.coreLen (s.ip s.turn) f.a := rfl
@[simp] theorem latch_addrA (s : State) (f : Fields) :
    (s.latch f).addrA = operandAddr s.mem s.coreLen (s.ip s.turn) f.a := rfl
@[simp] theorem latch_b (s : State) (f : Fields) :
    (s.latch f).b = operandValue s.mem s.coreLen (s.ip s.turn) f.b := rfl
@[simp] theorem latch_addrB (s : State) (f : Fields) :
    (s.latch f).addrB = operandAddr s.mem s.coreLen (s.ip s.turn) f.b := rfl

/-- Beginning play changes nothing a tick looks at. -/
@[simp] theorem beginPlay_latch (s : State) (f : Fields) : s.beginPlay.latch f = s.latch f := by
  simp [State.latch]

@[simp] theorem beginPlay_effectOf (s : State) (i : Instr) : effectOf i s.beginPlay = effectOf i s := by
  unfold effectOf
  rw [beginPlay_latch]
  cases i <;> rfl

/-- A handler that raises Violation: the whole effect (`60_exceptions.md` R154). -/
theorem finishTick_violation (s : State) (f : Fields) :
    Violates s (s.finishTick (s.latch f) .violation) f := by
  constructor <;> simp [State.finishTick]

/-- A handler that completes in a state without a violation: the whole effect. -/
theorem finishTick_done {s : State} (hv : s.violated = false) (f : Fields)
    (write : Option (Nat × Word)) (jump : Option Nat) :
    TickFrame s (s.finishTick (s.latch f) (.done write jump)) f ∧
    (s.finishTick (s.latch f) (.done write jump)).mem = (s.applyWrite write).mem ∧
    (s.finishTick (s.latch f) (.done write jump)).ip s.turn =
      jump.getD (incr s.coreLen (s.ip s.turn) 1) := by
  refine ⟨?_, ?_, ?_⟩
  · constructor <;> simp [State.finishTick, State.finishDone, hv]
  · cases write <;> simp [State.finishTick, State.finishDone, hv, State.applyWrite]
  · cases jump <;> simp [State.finishTick, State.finishDone, hv, State.applyJump, State.advance]

/-- An instruction whose handler raises Violation. -/
theorem exec_of_violation {i : Instr} {s : State} (h : effectOf i s = .violation) :
    ∃ t, exec i s = .next t ∧ Violates s t (instrFields i) :=
  ⟨_, by rw [exec_eq, h], finishTick_violation s _⟩

/-- An instruction whose handler completes. -/
theorem exec_of_done {i : Instr} {s : State} {write : Option (Nat × Word)} {jump : Option Nat}
    (hv : s.violated = false) (h : effectOf i s = .done write jump) :
    ∃ t, exec i s = .next t ∧ TickFrame s t (instrFields i) ∧ t.mem = (s.applyWrite write).mem ∧
      t.ip s.turn = jump.getD (incr s.coreLen (s.ip s.turn) 1) :=
  ⟨_, by rw [exec_eq, h], finishTick_done hv _ write jump⟩

/-- What a step that answers a next state can have done. -/
theorem step_next_cases {s t : State} (h : step s = .next t) :
    (s.ended = true ∧ t = s) ∨ (s.Ready ∧ exec s.fetchInstr s.beginPlay = .next t) := by
  unfold step at h
  split at h
  · rename_i he
    exact .inl ⟨he, by simpa using h.symm⟩
  · rename_i he
    split at h
    · rename_i hp
      split at h
      · rename_i hi
        exact .inr ⟨⟨hp, by simpa using he, hi⟩, h⟩
      · simp at h
    · simp at h

/-- A state that may take a tick takes the tick of its fetched instruction. -/
theorem step_of_ready {s : State} (h : s.Ready) : step s = exec s.fetchInstr s.beginPlay := by
  obtain ⟨hp, he, hi⟩ := h
  simp [step, hp, he, hi]

/-- A next state of a tick: it took the violation, or the fetched instruction's handler completed. -/
theorem exec_next_cases {i : Instr} {s t : State} (hv : s.violated = false)
    (h : exec i s = .next t) :
    (effectOf i s = .violation ∧ Violates s t (instrFields i)) ∨
    ∃ write jump, effectOf i s = .done write jump ∧ TickFrame s t (instrFields i) ∧
      t.mem = (s.applyWrite write).mem ∧
      t.ip s.turn = jump.getD (incr s.coreLen (s.ip s.turn) 1) := by
  cases he : effectOf i s with
  | violation =>
    obtain ⟨t', ht', hV⟩ := exec_of_violation he
    rw [ht'] at h
    obtain rfl : t' = t := by simpa using h
    exact .inl ⟨rfl, hV⟩
  | done write jump =>
    obtain ⟨t', ht', hF⟩ := exec_of_done hv he
    rw [ht'] at h
    obtain rfl : t' = t := by simpa using h
    exact .inr ⟨write, jump, rfl, hF⟩

end Sys2Proof.Machine
end

