-- ==== Sys2Proof/Laws/Effects.lean ====
section
/-! SUPPORT. What each instruction's handler answers, in terms of the operands' values and addresses:
cited where a statement is about one instruction. -/

namespace Sys2Proof.Machine

/-- A mode that gives no value. -/
theorem valueOf_eq_none {s : State} {o : Operand} (h : ¬o.HasValue) : s.valueOf o = none := by
  obtain ⟨m, f⟩ := o
  cases m <;> simp_all [operandValue]

/-- A mode that gives no address. -/
theorem addrOf_eq_none {s : State} {o : Operand} (h : ¬o.HasAddr) : s.addrOf o = none := by
  obtain ⟨m, f⟩ := o
  cases m <;> simp_all [operandAddr]

theorem effectOf_dat (s : State) (a b : Operand) : effectOf (.dat a b) s = .violation := rfl

theorem effectOf_illegal (s : State) (op : Opcode) (a b : Operand) :
    effectOf (.illegal op a b) s = .violation := rfl

theorem effectOf_mov (s : State) (a b : Operand) : effectOf (.mov a b) s =
    match s.valueOf a, s.addrOf b with
    | some va, some db => .done (some (db, va)) none
    | _, _ => .violation := rfl

theorem effectOf_add (s : State) (a b : Operand) : effectOf (.add a b) s =
    match s.valueOf a, s.valueOf b, s.addrOf b with
    | some va, some vb, some db => .done (some (db, addMod va vb)) none
    | _, _, _ => .violation := rfl

theorem effectOf_sub (s : State) (a b : Operand) : effectOf (.sub a b) s =
    match s.valueOf a, s.valueOf b, s.addrOf b with
    | some va, some vb, some db => .done (some (db, subMod va vb)) none
    | _, _, _ => .violation := rfl

theorem effectOf_jmp (s : State) (a b : Operand) : effectOf (.jmp a b) s =
    match s.addrOf b with
    | some db => .done none (some db)
    | none => .violation := rfl

theorem effectOf_jmz (s : State) (a b : Operand) : effectOf (.jmz a b) s =
    match s.valueOf a, s.addrOf b with
    | some va, some db => .done none (if isZero va = true then some db else none)
    | _, _ => .violation := rfl

theorem effectOf_djz (s : State) (a b : Operand) : effectOf (.djz a b) s =
    match s.addrOf a, s.addrOf b with
    | some da, some db =>
      .done (some (da, decMod (s.mem.read da)))
        (if isZero (decMod (s.mem.read da)) = true then some db else none)
    | _, _ => .violation := rfl

theorem effectOf_cmp (s : State) (a b : Operand) : effectOf (.cmp a b) s =
    match s.valueOf a, s.valueOf b with
    | some va, some vb =>
      .done none (if differ va vb = true then some (incr s.coreLen (s.ip s.turn) 2) else none)
    | _, _ => .violation := rfl

/-- The fields no instruction depends on or changes, whatever it answers. -/
theorem exec_common {i : Instr} {s t : State} (h : exec i s = .next t) :
    t.turn = other s.turn ∧ t.last = some (s.latch (instrFields i)) ∧
    t.ip (other s.turn) = s.ip (other s.turn) ∧ t.coreLen = s.coreLen ∧
    t.ipASet = s.ipASet ∧ t.ipBSet = s.ipBSet ∧ t.started = s.started := by
  rw [exec_eq] at h
  obtain rfl := (by simpa using h.symm : t = _)
  cases effectOf i s with
  | violation => simp [State.finishTick]
  | done write jump =>
    simp only [State.finishTick, State.finishDone]
    split <;> simp

/-- What a step that may take a tick has done, in terms of the state it started from. -/
theorem step_tick_cases {s t : State} (hr : s.Ready) (hv : s.violated = false)
    (h : step s = .next t) :
    (effectOf s.fetchInstr s = .violation ∧
      Violates s.beginPlay t (instrFields s.fetchInstr)) ∨
    ∃ write jump, effectOf s.fetchInstr s = .done write jump ∧
      TickFrame s.beginPlay t (instrFields s.fetchInstr) ∧ t.mem = (s.applyWrite write).mem ∧
      t.ip s.turn = jump.getD (incr s.coreLen (s.ip s.turn) 1) := by
  rw [step_of_ready hr] at h
  have hc := exec_next_cases (s := s.beginPlay) hv h
  simp only [beginPlay_effectOf, beginPlay_coreLen, beginPlay_turn, beginPlay_ip] at hc
  rcases hc with hc | ⟨w, j, h1, h2, h3, h4⟩
  · exact .inl hc
  · exact .inr ⟨w, j, h1, h2, by rw [h3]; cases w <;> rfl, h4⟩

/-- The pointers of the two programs, said of each. -/
theorem pointersInCore_iff {s : State} :
    s.PointersInCore ↔ 0 < s.coreLen ∧ ∀ p, s.ip p < s.coreLen := by
  constructor
  · rintro ⟨h, ha, hb⟩
    exact ⟨h, fun p => by cases p <;> assumption⟩
  · rintro ⟨h, hp⟩
    exact ⟨h, hp .A, hp .B⟩

end Sys2Proof.Machine
end

