-- ==== Sys2Proof/Laws/Loader.lean ====
section
/-! SUPPORT. What placing a program's words changes. -/

namespace Sys2Proof.Machine

/-- Placing words changes the memory alone. -/
theorem placeWords_fields (ws : List Word) (base : Nat) (s : State) :
    s.placeWords base ws = { s with mem := (s.placeWords base ws).mem } := by
  induction ws generalizing base s with
  | nil => rfl
  | cons w ws ih =>
    simp only [State.placeWords]
    rw [ih]
    rfl

/-- A cell that none of the words is placed in reads as before. -/
theorem placeWords_read_outside (ws : List Word) (base : Nat) (s : State) (addr : Nat)
    (h : ∀ i, i < ws.length → addr ≠ (base + i) % s.coreLen) :
    (s.placeWords base ws).mem.read addr = s.mem.read addr := by
  induction ws generalizing base s with
  | nil => rfl
  | cons w ws ih =>
    simp only [State.placeWords]
    rw [ih]
    · exact Memory.read_write_other _ _ (h 0 (by simp))
    · intro i hi
      have hne := h (i + 1) (by simpa using hi)
      simpa [Nat.add_assoc, Nat.add_comm 1 i] using hne

/-- No word is rejected exactly when every word is loadable. -/
theorem firstUnloadable_eq_none (ws : List Word) (k : Nat) :
    firstUnloadable k ws = none ↔ ∀ w ∈ ws, loadable w = true := by
  induction ws generalizing k with
  | nil => simp [firstUnloadable]
  | cons w ws ih =>
    simp only [firstUnloadable]
    split <;> simp_all

/-- A rejected word's index counts on from the first word's. -/
theorem firstUnloadable_index {ws : List Word} {k n : Nat} {w : Word}
    (h : firstUnloadable k ws = some (n, w)) : n < k + ws.length ∧ k ≤ n := by
  induction ws generalizing k with
  | nil => simp [firstUnloadable] at h
  | cons x xs ih =>
    simp only [firstUnloadable] at h
    split at h
    · have := ih h
      simp only [List.length_cons]
      omega
    · simp only [Option.some.injEq, Prod.mk.injEq] at h
      simp only [List.length_cons]
      omega

/-- What a rejection says: the word at that index, not loadable, with only loadable words before it. -/
theorem firstUnloadable_eq_some (ws : List Word) (k n : Nat) (w : Word) :
    firstUnloadable k ws = some (k + n, w) ↔
      ws[n]? = some w ∧ loadable w = false ∧ ∀ j v, j < n → ws[j]? = some v → loadable v = true := by
  induction ws generalizing k n with
  | nil => simp [firstUnloadable]
  | cons x xs ih =>
    simp only [firstUnloadable]
    split
    · rename_i hx
      cases n with
      | zero =>
        simp only [List.getElem?_cons_zero, Option.some.injEq, Nat.add_zero]
        refine ⟨fun h => absurd (firstUnloadable_index h) (by omega), ?_⟩
        rintro ⟨rfl, h, -⟩
        simp [hx] at h
      | succ n =>
        rw [show k + (n + 1) = k + 1 + n by omega, ih]
        simp only [List.getElem?_cons_succ]
        refine ⟨fun ⟨h1, h2, h3⟩ => ⟨h1, h2, ?_⟩, fun ⟨h1, h2, h3⟩ => ⟨h1, h2, fun j v hj h => ?_⟩⟩
        · rintro (_ | j) v hj h
          · simp_all
          · exact h3 j v (by omega) (by simpa using h)
        · exact h3 (j + 1) v (by omega) (by simpa using h)
    · rename_i hx
      cases n with
      | zero =>
        simp only [Nat.add_zero, List.getElem?_cons_zero, Option.some.injEq, Prod.mk.injEq,
          true_and]
        refine ⟨fun h => ⟨h, by simpa [← h] using hx, fun j v hj => absurd hj (by omega)⟩,
          fun ⟨h, _⟩ => h⟩
      | succ n =>
        refine ⟨fun h => by simp at h, fun ⟨_, _, h3⟩ => ?_⟩
        exact absurd (h3 0 x (by omega) (by simp)) hx

/-- Both warriors pass exactly when every word of both is loadable. -/
theorem validatePrograms_eq_none (A B : Warrior) :
    validatePrograms A B = none ↔ ∀ w ∈ A.words ++ B.words, loadable w = true := by
  unfold validatePrograms
  simp only [List.mem_append, or_imp, forall_and, ← firstUnloadable_eq_none _ 0]
  cases firstUnloadable 0 A.words <;> cases firstUnloadable 0 B.words <;> simp

end Sys2Proof.Machine
end

