-- ==== Sys2Proof/Laws/PerInstr.lean ====
section
/-! SUPPORT. Families of facts about every instruction, one lemma per constructor. -/

/-- The encoding of an instruction carries its opcode in bits 31:28 (`30_encoding.md` R51, R56). -/
def Sys2Proof.Laws.EncodeOpcode.Statement (i : Sys2Proof.Instr) : Prop :=
  (Sys2Proof.encode i).extractLsb' 28 4 = (Sys2Proof.instrFields i).opcode

namespace Sys2Proof.Laws.EncodeOpcode

theorem dat (a b : Operand) : Statement (.dat a b) := encodeFields_opcode _
theorem mov (a b : Operand) : Statement (.mov a b) := encodeFields_opcode _
theorem add (a b : Operand) : Statement (.add a b) := encodeFields_opcode _
theorem sub (a b : Operand) : Statement (.sub a b) := encodeFields_opcode _
theorem jmp (a b : Operand) : Statement (.jmp a b) := encodeFields_opcode _
theorem jmz (a b : Operand) : Statement (.jmz a b) := encodeFields_opcode _
theorem djz (a b : Operand) : Statement (.djz a b) := encodeFields_opcode _
theorem cmp (a b : Operand) : Statement (.cmp a b) := encodeFields_opcode _
theorem illegal (opcode : Opcode) (a b : Operand) : Statement (.illegal opcode a b) :=
  encodeFields_opcode _

end Sys2Proof.Laws.EncodeOpcode
end

