-- ==== Sys2Proof/Laws/Run.lean ====
section
/-! SUPPORT. The induction over a run, said once. -/

namespace Sys2Proof.Machine

/-- A run of `n + 1` steps is a step and a run of `n`. -/
theorem runFor_succ_next {s t : State} {n : Nat} (h : runFor (n + 1) s = .next t) :
    ∃ u, step s = .next u ∧ runFor n u = .next t := by
  simp only [runFor] at h
  split at h
  · exact ⟨_, by assumption, h⟩
  · cases h
  · cases h

/-- What every step keeps, every run keeps. -/
theorem runFor_induct {P : State → Prop} (hP : ∀ s t, P s → step s = .next t → P t) {n : Nat}
    {s t : State} (h0 : P s) (h : runFor n s = .next t) : P t := by
  induction n generalizing s with
  | zero =>
    obtain rfl : s = t := by simpa [runFor] using h
    exact h0
  | succ n ih =>
    obtain ⟨u, hu, h⟩ := runFor_succ_next h
    exact ih (hP _ _ h0 hu) h

end Sys2Proof.Machine
end

