-- ==== Sys2Proof/Tests/Slice0.lean ====
section
/-! SUPPORT. The model's own tests, each one step or less, with the expected values taken from
`spec/95_test_vectors.md`; and for each statement with hypotheses a witness that meets them. -/

namespace Sys2Proof.Machine.Tests

open Sys2Proof Sys2Proof.Machine

/-- Core of `L` cells, program A executing at `ip`, both pointers set, B at 0. -/
def core (L ip : Nat) (m : Memory) : State :=
  { State.resetOf L with mem := m, ipA := ip, ipASet := true, ipBSet := true }

/-- The usual fixture, `L = 16`. -/
def at16 (ip : Nat) (m : Memory) : State := core 16 ip m

/-- A's pointer, the memory and the violated flag after one step. -/
def after (s : State) : Option (Nat × Memory × Bool) :=
  match step s with
  | .next t => some (t.ipA, t.mem, t.violated)
  | _ => none

/-! ### Well-formedness and codec -/

theorem test_wellFormed_refuses_low_illegal :
    (Instr.illegal 7#4 ⟨.immediate, 0⟩ ⟨.immediate, 0⟩).wellFormed = false := by decide

theorem test_wellFormed_accepts_illegal_8_and_15 :
    (Instr.illegal 8#4 ⟨.immediate, 0⟩ ⟨.immediate, 0⟩).WellFormed ∧
    (Instr.illegal 15#4 ⟨.invalid, 4095⟩ ⟨.invalid, 4095⟩).WellFormed := by decide

-- opcode 0000, modes 00 01, fields 000 and FFF (section 2.1)
theorem test_decode_dat : decode 0x01000FFF#32 = .dat ⟨.immediate, 0⟩ ⟨.relative, 4095⟩ := by decide
-- 0001 10 10 001 002
theorem test_decode_mov : decode 0x1A001002#32 = .mov ⟨.indirect, 1⟩ ⟨.indirect, 2⟩ := by decide
-- conflict C1: the literal 0x11000001 is mov #0 1
theorem test_decode_mov_C1 : decode 0x11000001#32 = .mov ⟨.immediate, 0⟩ ⟨.relative, 1⟩ := by decide
-- 0010 00 01 004 003
theorem test_decode_add : decode 0x21004003#32 = .add ⟨.immediate, 4⟩ ⟨.relative, 3⟩ := by decide
-- 0011 00 01 002 004
theorem test_decode_sub : decode 0x31002004#32 = .sub ⟨.immediate, 2⟩ ⟨.relative, 4⟩ := by decide
-- 0100 11 01 000 002
theorem test_decode_jmp : decode 0x4D000002#32 = .jmp ⟨.invalid, 0⟩ ⟨.relative, 2⟩ := by decide
-- 0101 01 01 001 002
theorem test_decode_jmz : decode 0x55001002#32 = .jmz ⟨.relative, 1⟩ ⟨.relative, 2⟩ := by decide
-- 0110 10 00 FFF 003
theorem test_decode_djz : decode 0x68FFF003#32 = .djz ⟨.indirect, 4095⟩ ⟨.immediate, 3⟩ := by decide
-- 0111 01 00 003 004
theorem test_decode_cmp : decode 0x74003004#32 = .cmp ⟨.relative, 3⟩ ⟨.immediate, 4⟩ := by decide
-- 1000 11 11 FFF FFF
theorem test_decode_illegal :
    decode 0x8FFFFFFF#32 = .illegal 8#4 ⟨.invalid, 4095⟩ ⟨.invalid, 4095⟩ := by decide
theorem test_encode_words :
    encode (.mov ⟨.immediate, 5⟩ ⟨.relative, 4095⟩) = 0x11005FFF#32 ∧
    encode (.djz ⟨.relative, 4094⟩ ⟨.immediate, 0⟩) = 0x64FFE000#32 ∧
    encode (.illegal 15#4 ⟨.invalid, 4095⟩ ⟨.invalid, 4095⟩) = 0xFFFFFFFF#32 := by decide
theorem test_decodeTableWord :
    decodeTableWord 32 0x41000FFE = some (.jmp ⟨.immediate, 0⟩ ⟨.relative, 4094⟩) ∧
    decodeTableWord 40 0 = none := by decide
-- sections 2.1 and 2.2
theorem test_encodeArgs :
    encodeArgs 7 3 4095 3 4095 = .ok 0x7FFFFFFF#32 ∧ encodeArgs 0 0 0 0 0 = .ok 0x00000000#32 ∧
    encodeArgs 8 0 0 0 0 = .error .opcode ∧ encodeArgs 1 4 0 0 0 = .error .modeA ∧
    encodeArgs 1 0 4096 0 0 = .error .fieldA ∧ encodeArgs 1 0 0 4 0 = .error .modeB ∧
    encodeArgs 1 0 0 0 4096 = .error .fieldB ∧ encodeArgs (-1) 0 0 0 0 = .error .opcode := by decide
theorem test_isValid :
    isValid (decodeFields 0x7AFFFFFF#32) = true ∧ isValid (decodeFields 0x0C000000#32) = false ∧
    isValid (decodeFields 0x03000000#32) = false ∧ isValid (decodeFields 0x80000000#32) = false := by
  decide

/-! ### Fold and the resolver (section 3) -/

theorem test_fold_table :
    fold 12 (-1) = 3 ∧ fold 16 5000 = 8 ∧ fold 1000 4999 = 903 ∧ fold 4095 4096 = 0 ∧
    fold 4096 (-1) = 4095 ∧ fold 8192 8193 = 1 ∧ fold 1 4095 = 0 := by decide
theorem test_incr_table :
    incr 16 15 1 = 0 ∧ incr 16 15 2 = 1 ∧ incr 4095 4094 2 = 0 ∧ incr 4097 4096 1 = 1 ∧
    incr 1 0 2 = 0 := by decide

/-- The fixture of section 3.3. -/
def fixture : Memory :=
  [(2, 0x00000003#32), (4, 0x00000007#32), (5, 0x00000FFF#32), (6, 0x15000FFE#32)]

theorem test_resolve_immediate : resolve fixture 16 1 ⟨.immediate, 9⟩ = ⟨some 9, none⟩ := by decide
theorem test_resolve_relative :
    resolve fixture 16 1 ⟨.relative, 1⟩ = ⟨some 3, some 2⟩ ∧
    resolve fixture 16 1 ⟨.relative, 4094⟩ = ⟨some 0, some 15⟩ := by decide
theorem test_resolve_indirect :
    resolve fixture 16 1 ⟨.indirect, 1⟩ = ⟨some 0xFFF, some 5⟩ ∧
    resolve fixture 16 1 ⟨.indirect, 5⟩ = ⟨some 7, some 4⟩ ∧
    resolve fixture 16 1 ⟨.indirect, 3⟩ = ⟨some 0, some 11⟩ := by decide
theorem test_resolve_invalid : resolve fixture 16 1 ⟨.invalid, 77⟩ = ⟨none, none⟩ := by decide
theorem test_resolve_seam :
    (resolve [] 1000 0 ⟨.relative, 4095⟩).addr = some 95 ∧
    (resolve [] 1000 999 ⟨.relative, 4000⟩).addr = some 903 := by decide

/-! ### One tick of each instruction (sections 4 and 5) -/

-- V-DAT-3
theorem test_dat : after (at16 4 [(4, 7)]) = some (4, [(4, 7)], true) := by decide
-- V-ILL-2
theorem test_illegal :
    after (at16 0 [(0, 0xFFFFFFFF)]) = some (0, [(0, 0xFFFFFFFF)], true) := by decide
-- V-MOV-2, V-MOV-6
theorem test_mov_wraps :
    after (at16 15 [(15, 0x11005FFF)]) = some (0, [(14, 5), (15, 0x11005FFF)], false) := by decide
theorem test_mov_indirect :
    after (at16 0 [(0, 0x1A001002), (1, 3), (2, 5), (4, 0x7AFFFFFF)]) =
      some (1, [(0, 0x1A001002), (1, 3), (2, 5), (4, 0x7AFFFFFF), (7, 0x7AFFFFFF)], false) := by decide
-- V-ADD-3, V-ADD-2
theorem test_add_drops_upper_bits :
    after (at16 0 [(0, 0x21001001), (1, 0x41000FFE)]) =
      some (1, [(0, 0x21001001), (1, 0xFFF)], false) := by decide
theorem test_add_wraps :
    after (at16 0 [(0, 0x25004005), (4, 7), (5, 0xFFF)]) =
      some (1, [(0, 0x25004005), (4, 7), (5, 6)], false) := by decide
-- V-SUB-4, V-SUB-1
theorem test_sub_reduces :
    after (at16 0 [(0, 0x35001002), (1, 0x15000003), (2, 1)]) =
      some (1, [(0, 0x35001002), (1, 0x15000003), (2, 0xFFE)], false) := by decide
theorem test_sub_direction :
    after (at16 1 [(1, 0x31002004), (5, 6)]) = some (2, [(1, 0x31002004), (5, 4)], false) := by decide
-- V-JMP-5, V-JMP-4
theorem test_jmp_ignores_mode_a :
    after (at16 0 [(0, 0x4D000002)]) = some (2, [(0, 0x4D000002)], false) := by decide
theorem test_jmp_indirect :
    after (at16 0 [(0, 0x42000001), (1, 5)]) = some (6, [(0, 0x42000001), (1, 5)], false) := by decide
-- V-JMZ-3, V-JMZ-4
theorem test_jmz_whole_word :
    after (at16 0 [(0, 0x55001002), (1, 0x01000000)]) =
      some (1, [(0, 0x55001002), (1, 0x01000000)], false) := by decide
theorem test_jmz_checks_first :
    after (at16 0 [(0, 0x50001000)]) = some (0, [(0, 0x50001000)], true) := by decide
-- V-DJZ-9, V-DJZ-4
theorem test_djz_old_pointer :
    after (at16 0 [(0, 0x66001001), (1, 3)]) = some (1, [(0, 0x66001001), (1, 2)], false) ∧
    (at16 0 [(0, 0x66001001), (1, 3)]).addrOf ⟨.indirect, 1⟩ = some 4 := by decide
theorem test_djz_jumps :
    after (at16 0 [(0, 0x65003002), (3, 0x15000001)]) = some (2, [(0, 0x65003002)], false) := by decide
-- V-CMP-1, V-CMP-4
theorem test_cmp_skips :
    after (at16 15 [(15, 0x70001002)]) = some (1, [(15, 0x70001002)], false) := by decide
theorem test_cmp_equal :
    after (at16 0 [(0, 0x75000000)]) = some (1, [(0, 0x75000000)], false) := by decide

/-! ### The step, the observer, the surrounding software -/

theorem test_first_step_after_reset :
    after (State.reset.withFetchWord 32 0x15000001) =
      some (1, [(0, 0x15000001), (1, 0x15000001)], false) := by decide

-- V-DJZ-6: the latch, the flags and the diagnostics of a violating tick
theorem test_violation_latch : ∃ t, step (at16 0 [(0, 0x64FFE000), (14, 5)]) = .next t ∧
    t.winner = some .B ∧ t.turn = .B ∧ t.ended = true ∧
    t.last = some ⟨.A, 0, 0x64FFE000, ⟨6, ⟨.relative, 4094⟩, ⟨.immediate, 0⟩⟩,
      some 5, some 14, some 0, none⟩ ∧
    t.last.bind violationCause = some (.vOperand [.addrB]) ∧
    lastDecodedInstruction t = some ⟨some "djz", .relative, -2, .immediate, 0⟩ :=
  ⟨_, rfl, by decide⟩

theorem test_onWrite :
    onWriteEvent (at16 15 [(15, 0x11005FFF)]) = some 14 ∧
    onWriteEvent (at16 0 [(0, 0x64FFE000)]) = none := by decide

-- section 2.3
theorem test_displayField :
    displayField 4095 = -1 ∧ displayField 3968 = -128 ∧ displayField 3967 = 3967 ∧
    displayField 0 = 0 := by decide

-- program P5: a placement that wraps
theorem test_load_wraps : ∃ s, load 16 ⟨1, [0, 0x11005FFF, 0x64FFE000]⟩ ⟨0, [0x41000000]⟩ 14 3 = .ok s ∧
    s.mem = [(0, 0x64FFE000), (4, 0x41000000), (15, 0x11005FFF)] ∧ s.ipA = 15 ∧ s.ipB = 4 :=
  ⟨_, rfl, by decide⟩

-- section 6
theorem test_load_errors :
    load 4 ⟨0, [1, 1, 1]⟩ ⟨0, [1]⟩ 0 0 = .error .capacity ∧
    load 16 ⟨0, [0x80000000]⟩ ⟨0, [1]⟩ 0 0 = .error (.invalidInstruction .A 0 0x80000000) ∧
    load 16 ⟨0, [1, 2]⟩ ⟨0, [1, 0xF0000000, 0x80000000]⟩ 0 0 =
      .error (.invalidInstruction .B 1 0xF0000000) := by decide

-- X4, X3
theorem test_assemble_load_directive :
    (assemble "mov 0 1\nLOAD\nadd 0 0").map serialize = .ok [1, 0x15000001, 0x25000000] := by decide
theorem test_assemble_ranges :
    assemble "mov #4096 1" = .error (.range 1) ∧ assemble "mov #-4096 1" = .error (.range 1) ∧
    assemble "mov #-4095 1" = .ok ⟨0, [0x11001001]⟩ := by decide
-- section 2.1 and conflict C2
theorem test_assemble_refusals :
    assemble "; c\n\nfoo 1" = .error (.unknownOpcode 3) ∧
    assemble "dat #0 #0" = .error (.malformed 1) ∧ assemble "  jmp\t-2 " = .ok ⟨0, [0x41000FFE]⟩ := by
  decide
theorem test_deserialize : deserialize [1, 0x15000001] = some ⟨1, [0x15000001]⟩ := by decide

/-! ### Witnesses: concrete states and operands that meet the hypotheses of the statements -/

theorem witness_decodeInvertsEncode :
    (Instr.djz ⟨.invalid, 4095⟩ ⟨.indirect, 0⟩).WellFormed := by decide

theorem witness_toolchainEncode :
    (7 ≤ 7 ∧ 3 ≤ 3 ∧ 4095 < 4096) ∧ (decodeFields 0x7FFFFFFF#32).opcode.toNat ≤ 7 := by decide

theorem witness_writtenNumber : decode (BitVec.ofNat 32 4095) = .dat ⟨.immediate, 0⟩ ⟨.immediate, 4095⟩ := by
  decide

theorem witness_foldUniform : 0 < 4096 ∧ 4096 ∣ 4096 ∧ fold 4096 (0 + (4096 - ((4096 : Nat) : Int))) = 0 := by
  decide

theorem witness_foldSeam :
    ¬ 4095 ∣ 4096 ∧ fold 4095 ((4095 : Nat) : Int) = 4095 % 4095 ∧ fold 4095 ((4096 : Nat) : Int) = 0 ∧
    fold 4095 ((8191 : Nat) : Int) = 0 ∧ fold 12 ((5 : Int) + (4096 - ((5 : Nat) : Int))) = 0 ∧
    fold 12 ((0 : Int) + (4096 - ((1 : Nat) : Int))) = 3 := by decide

theorem witness_incrWraps :
    incr 4096 4095 1 = 0 ∧ incr 2 1 2 = 1 ∧ incr 4094 4093 2 = 1 ∧ incr 4096 4095 2 = 1 ∧
    incr 1 0 2 = 0 ∧ incr 4095 4094 2 = 0 ∧ incr 4097 4095 1 = 0 ∧ incr 4097 4096 1 = 1 := by decide

theorem witness_skipIsTwoAdvances :
    incr 4095 (incr 4095 4094 1) 1 ≠ incr 4095 4094 2 ∧
    incr 4095 (incr 4095 4093 1) 1 = incr 4095 4093 2 := by decide

theorem witness_immediateValue : (at16 0 []).valueOf ⟨.immediate, 4095⟩ = some 4095 := by decide

theorem witness_illegalWord : 8 ≤ (8#4 : Opcode).toNat ∧
    0x80000000#32 &&& 0x80000000#32 = 0x80000000#32 ∧ encodeArgs 8 0 0 0 0 = .error .opcode := by decide

/-- A running state and operands for the completing clauses of `mov`, `add`, `sub`, `jmp`, `jmz`, `djz`
and `cmp`. -/
theorem witness_completes :
    (at16 15 fixture).violated = false ∧
    (at16 15 fixture).valueOf ⟨.indirect, 3⟩ = some 0xFFF ∧
    (at16 15 fixture).valueOf ⟨.relative, 3⟩ = some 3 ∧
    (at16 15 fixture).addrOf ⟨.indirect, 3⟩ = some 5 ∧
    (at16 15 fixture).addrOf ⟨.relative, 0⟩ = some 15 ∧
    (at16 15 fixture).valueOf ⟨.immediate, 0⟩ = some 0 := by decide

/-- Operands for the violating clauses: a missing value, a missing address. -/
theorem witness_violates :
    ¬(Operand.mk .invalid 0).HasValue ∧ ¬(Operand.mk .immediate 4095).HasAddr ∧
    ¬(Operand.mk .invalid 0).HasAddr := by decide

theorem witness_datValid : (Operand.mk .immediate 0).HasValue ∧ (Operand.mk .indirect 4095).HasValue := by
  decide

/-- A tick that completes with a write, for the statements about a step from a ready state. -/
theorem witness_tick : (at16 15 [(15, 0x11005FFF)]).Ready ∧ (at16 15 [(15, 0x11005FFF)]).Inv ∧
    (at16 15 [(15, 0x11005FFF)]).Launch ∧ (at16 15 [(15, 0x11005FFF)]).pointersSet = true ∧
    ∃ t, step (at16 15 [(15, 0x11005FFF)]) = .next t ∧ t.violated = false ∧ t.started = true ∧
      t.Inv ∧ onWriteEvent (at16 15 [(15, 0x11005FFF)]) = some 14 :=
  ⟨by decide, by decide, by decide, by decide, _, rfl, by decide⟩

/-- A tick that violates. -/
theorem witness_violating_tick : (at16 0 []).Ready ∧ (at16 0 []).Inv ∧ (at16 0 []).violated = false ∧
    ∃ t, step (at16 0 []) = .next t ∧ t.violated = true ∧ t.ended = true ∧ t.Inv ∧
      t.winner = some t.turn := ⟨by decide, by decide, by decide, _, rfl, by decide⟩

/-- An ended state, with a winner. -/
def endedState : State :=
  { at16 0 [] with violated := true, ended := true, winner := some .B, turn := .B, started := true }

theorem witness_ended : endedState.ended = true ∧ endedState.Inv ∧ endedState.winner = some .B ∧
    runFor 3 endedState = .next endedState := ⟨rfl, by decide, rfl, rfl⟩

theorem witness_stepRunsDecoded : (at16 0 [(0, 0x41000000)]).Ready ∧
    decode ((at16 0 [(0, 0x41000000)]).mem.read 0) = .jmp ⟨.immediate, 0⟩ ⟨.relative, 0⟩ := by decide

theorem witness_misuse : State.reset.ended = false ∧ State.reset.ipASet = false ∧
    ({ at16 0 [] with ipBSet := false } : State).ipBSet = false ∧ endedState.started = true := by decide

/-- The first address outside the core. -/
theorem witness_addressOutside : (at16 0 []).started = false ∧ (at16 0 []).coreLen ≤ 16 := by decide

/-- Loader commands at the two ends of the core. -/
theorem witness_loaderCommands : (at16 0 []).started = false ∧ 0 < (at16 0 []).coreLen ∧
    15 < (at16 0 []).coreLen ∧ runCommand (.loadWrite 16 0) (at16 0 []) = .refused (.addressOutsideCore 16) :=
  ⟨by decide, by decide, by decide, rfl⟩

theorem witness_reset : 0 < 1 ∧ (State.resetOf 1).Inv ∧ runCommand (.reset 0) endedState = .refused .emptyCore :=
  ⟨by decide, by decide, rfl⟩

theorem witness_launchRun : (at16 0 [(0, 0x41000000)]).Launch ∧
    ∃ t, runFor 2 { at16 0 [(0, 0x41000000)] with ipB := 0 } = .next t ∧ t.ended = false ∧ t.turn = .A :=
  ⟨by decide, _, rfl, by decide⟩

/-- A running state whose instruction `w` at 0 reads cell 1 and writes cell 2, where B's pointer is. -/
def writer (w : Word) : State := { core 16 0 [(0, w), (1, 0x41000003), (2, 5)] with ipB := 2 }

/-- Cell 2 is written and fetched next: by `mov 1 2`, `add 1 2`, `sub 1 2` and `djz 2 1`. -/
theorem witness_nextFetch :
    ((writer 0x15001002).Ready ∧ (writer 0x15001002).violated = false ∧
      onWriteEvent (writer 0x15001002) = some 2 ∧
      ∃ t, step (writer 0x15001002) = .next t ∧ t.activeIp = 2 ∧ t.fetchWord = 0x41000003) ∧
    (onWriteEvent (writer 0x25001002) = some 2 ∧
      ∃ t, step (writer 0x25001002) = .next t ∧ t.activeIp = 2 ∧ t.fetchWord = 8) ∧
    (onWriteEvent (writer 0x35001002) = some 2 ∧
      ∃ t, step (writer 0x35001002) = .next t ∧ t.activeIp = 2 ∧ t.fetchWord = 2) ∧
    (onWriteEvent (writer 0x65002001) = some 2 ∧
      ∃ t, step (writer 0x65002001) = .next t ∧ t.activeIp = 2 ∧ t.fetchWord = 4) :=
  ⟨⟨by decide, by decide, by decide, _, rfl, by decide⟩, ⟨by decide, _, rfl, by decide⟩,
    ⟨by decide, _, rfl, by decide⟩, by decide, _, rfl, by decide⟩

/-- What the observer reads after a tick, and before the first. -/
theorem witness_observer : lastDecodedInstruction (at16 0 []) = none ∧
    ∃ t, step (at16 0 [(0, 0x64FFE000)]) = .next t ∧ t.last.isSome = true := ⟨rfl, _, rfl, by decide⟩

theorem witness_noIllegalCell : (at16 0 []).NoIllegalCell ∧ ∃ t, step (at16 0 []) = .next t :=
  ⟨fun _ => by show (0#32).getLsbD 31 = false; decide, _, rfl⟩

theorem witness_highCells : 4096 < (core 4097 4096 [(4096, 0x41000000)]).coreLen ∧
    (core 4097 4096 [(4096, 0x41000000)]).Ready ∧
    (core 4097 4096 [(4096, 0x41000000)]).addrOf ⟨.relative, 0⟩ = some 0 ∧
    ∃ t, step (core 4097 4096 [(4096, 0x41000000)]) = .next t ∧ t.violated = false ∧ t.ipA = 0 :=
  ⟨by decide, by decide, by decide, _, rfl, by decide⟩

theorem witness_canonical : Memory.wf fixture ∧ ¬ Memory.wf [(2, 1), (2, 1)] ∧ ¬ Memory.wf [(2, 0)] := by
  decide

theorem witness_regions : 1 + 1 < 3 ∧ 0 < 3 - 1 - 1 ∧ (2 + 0) % 3 ≠ (baseB 3 2 1 0 + 0) % 3 := by decide

theorem witness_load : ∃ s, load 3 ⟨5, [0x41000000]⟩ ⟨0, [0x0C000000]⟩ 2 0 = .ok s ∧
    s.Launch ∧ s.mem = [(0, 0x0C000000), (2, 0x41000000)] ∧ s.ipA = 1 ∧ s.ipB = 0 :=
  ⟨_, rfl, by decide⟩

theorem witness_loadFailures : 3 ≤ [0#32, 0#32].length + [0#32].length ∧
    (decodeFields 0x80000000#32).opcode.toNat = 8 ∧ (decodeFields 0x7FFFFFFF#32).opcode.toNat ≤ 7 := by
  decide

theorem witness_literalPrefix : parseInt ['-', '4', '0', '9', '5'] = some (-4095) ∧
    parseOperand 1 ['@', '-', '4', '0', '9', '5'] = .ok (2, 1) ∧
    parseOperand 1 ['-', '4', '0', '9', '5'] = .ok (1, 1) ∧
    parseOperand 1 ['#', '4', '0', '9', '5'] = .ok (0, 4095) := by decide

theorem witness_literals :
    foldLiteral (-4095) = 1 ∧ foldLiteral 4095 = 4095 ∧
    parseInt (splitPrefix ['#', '-', '4', '0', '9', '6']).2 = some (-4096) ∧
    parseOperand 1 ['4', '0', '9', '6'] = .error (.range 1) := by decide

theorem witness_assembled : assembleChars ['L', 'O', 'A', 'D'] = .ok ⟨0, []⟩ ∧
    assembleChars ['j', 'm', 'p', ' ', '@', '1'] = .ok ⟨0, [0x42000001]⟩ := by decide

end Sys2Proof.Machine.Tests
end

section
/-! PROOFS. The machine's state: what a step that takes no tick answers, which addresses a handler can
name, the invariant of `10_state.md` R25 kept along runs, and the statements about it. -/

namespace Sys2Proof.Machine

/-! ### Steps that take no tick -/

/-- An ended machine's step answers the state it was given (`40_tick_and_operands.md` R81). -/
theorem step_of_ended {s : State} (h : s.ended = true) : step s = .next s := by
  simp [step, h]

/-- `Update` before both pointers are set (`70_reset_and_hazards.md` R189). -/
theorem step_of_pointers_not_set {s : State} (he : s.ended = false) (hp : s.pointersSet = false) :
    step s = .refused .pointersNotSet := by
  simp [step, he, hp]

theorem runFor_of_ended {s : State} (h : s.ended = true) (n : Nat) : runFor n s = .next s := by
  induction n with
  | zero => rfl
  | succ n ih => simp [runFor, step_of_ended h, ih]

/-! ### The addresses a handler names -/

/-- A handler writes only to the resolved address of an operand. -/
theorem effectOf_write_addr {i : Instr} {s : State} {d : Nat} {x : Word} {jump : Option Nat}
    (h : effectOf i s = .done (some (d, x)) jump) : ∃ o, s.addrOf o = some d := by
  cases i with
  | dat a b => simp [effectOf_dat] at h
  | mov a b => exact ⟨b, by rw [effectOf_mov] at h; split at h <;> simp_all⟩
  | add a b => exact ⟨b, by rw [effectOf_add] at h; split at h <;> simp_all⟩
  | sub a b => exact ⟨b, by rw [effectOf_sub] at h; split at h <;> simp_all⟩
  | jmp a b => rw [effectOf_jmp] at h; split at h <;> simp at h
  | jmz a b => rw [effectOf_jmz] at h; split at h <;> simp at h
  | djz a b => exact ⟨a, by rw [effectOf_djz] at h; split at h <;> simp_all⟩
  | cmp a b => rw [effectOf_cmp] at h; split at h <;> simp at h
  | illegal op a b => simp [effectOf_illegal] at h

/-- A handler sets the pointer only to the resolved address of an operand, or two cells on. -/
theorem effectOf_jump_addr {i : Instr} {s : State} {d : Nat} {write : Option (Nat × Word)}
    (h : effectOf i s = .done write (some d)) :
    (∃ o, s.addrOf o = some d) ∨ d = incr s.coreLen (s.ip s.turn) 2 := by
  cases i with
  | dat a b => simp [effectOf_dat] at h
  | mov a b => rw [effectOf_mov] at h; split at h <;> simp at h
  | add a b => rw [effectOf_add] at h; split at h <;> simp at h
  | sub a b => rw [effectOf_sub] at h; split at h <;> simp at h
  | jmp a b => exact .inl ⟨b, by rw [effectOf_jmp] at h; split at h <;> simp_all⟩
  | jmz a b => exact .inl ⟨b, by rw [effectOf_jmz] at h; split at h <;> simp_all⟩
  | djz a b => exact .inl ⟨b, by rw [effectOf_djz] at h; split at h <;> simp_all⟩
  | cmp a b => exact .inr (by rw [effectOf_cmp] at h; split at h <;> simp_all)
  | illegal op a b => simp [effectOf_illegal] at h

theorem effectOf_write_lt {i : Instr} {s : State} {d : Nat} {x : Word} {jump : Option Nat}
    (hL : 0 < s.coreLen) (h : effectOf i s = .done (some (d, x)) jump) : d < s.coreLen := by
  obtain ⟨o, ho⟩ := effectOf_write_addr h
  exact operandAddr_lt hL ho

/-- The pointer after a completed handler, jumped or advanced, is an address of the core. -/
theorem effectOf_pointer_lt {i : Instr} {s : State} {write : Option (Nat × Word)}
    {jump : Option Nat} (hL : 0 < s.coreLen) (h : effectOf i s = .done write jump) :
    jump.getD (incr s.coreLen (s.ip s.turn) 1) < s.coreLen := by
  cases jump with
  | none => exact incr_lt hL _ _
  | some d =>
    obtain ⟨o, ho⟩ | hd := effectOf_jump_addr h
    · exact operandAddr_lt hL ho
    · exact hd ▸ incr_lt hL _ _

theorem target_eq_some {r : HandlerResult} {d : Nat} (h : r.target = some d) :
    ∃ x jump, r = .done (some (d, x)) jump := by
  match r with
  | .violation => cases h
  | .done none _ => cases h
  | .done (some (_, x)) jump => cases h; exact ⟨x, jump, rfl⟩

/-- A write event comes from the handler of the fetched instruction. -/
theorem onWriteEvent_eq_some {s : State} {d : Nat} (h : onWriteEvent s = some d) :
    ∃ x jump, effectOf s.fetchInstr s = .done (some (d, x)) jump := by
  unfold onWriteEvent at h
  split at h
  · cases h
  · split at h
    · exact target_eq_some h
    · cases h

/-! ### The invariant -/

theorem applyWrite_memoryOk {s : State} {write : Option (Nat × Word)} (hm : s.MemoryOk)
    (hw : ∀ d x, write = some (d, x) → d < s.coreLen) : (s.applyWrite write).MemoryOk := by
  obtain ⟨hwf, hin⟩ := hm
  match write with
  | none => exact ⟨hwf, hin⟩
  | some (d, x) => exact ⟨Memory.write_wf d x hwf, Memory.write_inCore x hin (hw d x rfl)⟩

/-- While the battle runs, the other two end marks are clear. -/
theorem flags_of_running {s : State} (hf : s.FlagsAgree) (he : s.ended = false) :
    s.violated = false ∧ s.winner = none := by
  obtain ⟨hv, hw⟩ := hf
  exact ⟨hv ▸ he, by simpa [he] using hw⟩

/-- The mark that play has begun is no part of the invariant. -/
theorem beginPlay_inv {s : State} : s.beginPlay.Inv ↔ s.Inv := Iff.rfl

/-- Taking the violation keeps the invariant and sets the three end marks together. -/
theorem inv_of_violates {s t : State} {f : Fields} (hs : s.Inv) (h : Violates s t f) : t.Inv := by
  obtain ⟨hp, -, hm⟩ := hs
  refine ⟨?_, ⟨by rw [h.ended, h.violated], by simp [h.ended, h.winner]⟩, ?_⟩
  · simpa only [State.PointersInCore, h.coreLen, h.ipA, h.ipB] using hp
  · simpa only [State.MemoryOk, h.mem, h.coreLen] using hm

/-- A completed tick keeps the invariant where the memory and the new pointer it leaves are right. -/
theorem inv_of_tickFrame {s t : State} {f : Fields} (hs : s.Inv) (h : TickFrame s t f)
    (hm : t.MemoryOk) (hip : t.ip s.turn < s.coreLen) : t.Inv := by
  obtain ⟨hp, hf, -⟩ := hs
  obtain ⟨hL, hall⟩ := pointersInCore_iff.1 hp
  refine ⟨pointersInCore_iff.2 (h.coreLen ▸ ⟨hL, fun p => ?_⟩), ?_, hm⟩
  · by_cases hpt : p = s.turn
    · exact hpt ▸ hip
    · rw [eq_other_of_ne hpt, h.otherIp]
      exact hall _
  · simpa only [State.FlagsAgree, h.ended, h.violated, h.winner] using hf

theorem step_coreLen {s t : State} (h : step s = .next t) : t.coreLen = s.coreLen := by
  obtain ⟨-, rfl⟩ | ⟨-, h⟩ := step_next_cases h
  · rfl
  · obtain ⟨-, -, -, hc, -⟩ := exec_common h
    exact hc

/-- Every step keeps the invariant of R25, from every state that has it. -/
theorem step_keeps_inv {s t : State} (hs : s.Inv) (h : step s = .next t) : t.Inv := by
  obtain ⟨-, rfl⟩ | ⟨hr, -⟩ := step_next_cases h
  · exact hs
  have ⟨⟨hL, _, _⟩, hf, hm⟩ := hs
  have ⟨_, he, _⟩ := hr
  have ⟨hv, _⟩ := flags_of_running hf he
  obtain ⟨-, hV⟩ | ⟨write, jump, heff, hF, hmem, hip⟩ := step_tick_cases hr hv h
  · exact inv_of_violates (beginPlay_inv.2 hs) hV
  · have hm' : (s.applyWrite write).MemoryOk :=
      applyWrite_memoryOk hm fun d x hw => effectOf_write_lt hL (hw ▸ heff)
    refine inv_of_tickFrame (beginPlay_inv.2 hs) hF ?_ (hip ▸ effectOf_pointer_lt hL heff)
    simpa only [State.MemoryOk, hmem, step_coreLen h, applyWrite_coreLen] using hm'

theorem runFor_keeps_inv {s t : State} {n : Nat} (hs : s.Inv) (h : runFor n s = .next t) :
    t.Inv ∧ t.coreLen = s.coreLen :=
  runFor_induct (P := fun u => u.Inv ∧ u.coreLen = s.coreLen)
    (fun _ _ ⟨hi, hc⟩ hst => ⟨step_keeps_inv hi hst, (step_coreLen hst).trans hc⟩) ⟨hs, rfl⟩ h

/-- In a state with the invariant every address the next tick uses is one of the core
(`10_state.md` R25(b)). -/
theorem inv_addresses_lt {s : State} (hs : s.Inv) :
    s.activeIp < s.coreLen ∧
    (∀ f : Field, relativeAddr s.coreLen (s.ip s.turn) f < s.coreLen) ∧
    (∀ (o : Operand) (d : Nat), s.addrOf o = some d → d < s.coreLen) ∧
    (∀ d : Nat, onWriteEvent s = some d → d < s.coreLen) := by
  obtain ⟨hp, -, -⟩ := hs
  obtain ⟨hL, hip⟩ := pointersInCore_iff.1 hp
  refine ⟨hip _, relativeAddr_lt hL _, fun _ _ => operandAddr_lt hL, fun d hd => ?_⟩
  obtain ⟨x, jump, heff⟩ := onWriteEvent_eq_some hd
  exact effectOf_write_lt hL heff

/-! ### The winner -/

/-- What a tick from a running state with the invariant leaves in `winner`. -/
theorem step_winner {s t : State} (hs : s.Inv) (he : s.ended = false) (h : step s = .next t) :
    (t.violated = true → t.winner = some (other s.turn)) ∧ (t.violated = false → t.winner = none) := by
  obtain ⟨-, hf, -⟩ := hs
  obtain ⟨hv, hw⟩ := flags_of_running hf he
  obtain ⟨he', -⟩ | ⟨hr, -⟩ := step_next_cases h
  · simp [he] at he'
  obtain ⟨-, hV⟩ | ⟨_, _, -, hF, -, -⟩ := step_tick_cases hr hv h
  · exact ⟨fun _ => hV.winner, fun hvt => by simp [hV.violated] at hvt⟩
  · exact ⟨fun hvt => by simp [hF.violated, hv] at hvt, fun _ => hF.winner.trans hw⟩

/-- With the end marks agreeing, a state with a winner has ended, so runs stay in it. -/
theorem runFor_of_winner {s : State} {p : ProgramId} (hf : s.FlagsAgree) (hw : s.winner = some p)
    (n : Nat) : runFor n s = .next s := by
  obtain ⟨-, hew⟩ := hf
  exact runFor_of_ended (by simp [hew, hw]) n

/-! ### The statements -/

/-- Settles O33: R25's invariant holds along the run, and its clauses follow from it. -/
theorem launchRunsKeepR25 : Obligations.LaunchRunsKeepR25 := by
  rintro s t n ⟨hs, -⟩ h
  obtain ⟨ht, hc⟩ := runFor_keeps_inv hs h
  have ⟨⟨_, hA, hB⟩, hf, _⟩ := ht
  exact ⟨⟨hc ▸ hA, hc ▸ hB, hc⟩, inv_addresses_lt ht, hf, runFor_of_ended⟩

/-- Settles O41: a running step by its two outcomes, a winner's persistence by the ended no-op. -/
theorem winnerIsTheOtherProgram : Obligations.WinnerIsTheOtherProgram := by
  refine ⟨fun _ _ => step_winner, ?_, fun _ => rfl, fun _ => rfl⟩
  rintro s t p n ⟨-, hf, -⟩ hw h
  rw [runFor_of_winner hf hw] at h
  cases h
  exact hw

/-- Settles O30: `Reset(L)` answers `State.resetOf L`, whose pointers no loader command has set. -/
theorem resetValues : Obligations.ResetValues := by
  intro s L hL
  refine ⟨State.resetOf L, ?_, rfl, rfl, rfl, rfl, rfl, Memory.read_nil, rfl, ?_⟩
  · simp [runCommand, cmdReset, hL]
  · exact step_of_pointers_not_set rfl rfl

end Sys2Proof.Machine
end

section
/-! The integer form of `Fold`: the two floor moduli of `20_memory.md` R33, and the range they give. -/

namespace Sys2Proof.Machine

/-- The floor modulus 4096 is never negative, so `fold`'s passage to `Nat` loses nothing. -/
theorem fold_intCast (L : Nat) (x : Int) : ((fold L x : Nat) : Int) = (x % 4096) % (L : Int) := by
  have hx : 0 ≤ x % 4096 := Int.emod_nonneg x (by decide)
  rw [fold, Int.natCast_emod, Int.toNat_of_nonneg hx]

/-- The second modulus only lowers the result of the first, so the bound 4096 holds for every `L`. -/
theorem fold_lt_4096 (L : Nat) (x : Int) : fold L x < 4096 := by
  have hx : x % 4096 < 4096 := Int.emod_lt_of_pos x (by decide)
  calc fold L x ≤ (x % 4096).toNat := Nat.mod_le _ L
    _ < 4096 := by omega

/-- Settles O7: the two moduli by `fold_intCast`, each bound of the range by its own modulus. -/
theorem foldIsTwoModuli : Obligations.FoldIsTwoModuli :=
  fun L x hL => ⟨fold_intCast L x, fold_lt hL x, fold_lt_4096 L x⟩

end Sys2Proof.Machine
end

section
/-! PROOFS. The statements of `30_encoding.md` about the toolchain's `Encode` and the illegal opcodes: the
layout as a weighted sum, the two outcomes of `Encode`, and bit 31 as the mark of opcodes 8 to 15. -/

namespace Sys2Proof.Machine

/-! ### The layout as a sum -/

/-- In a concatenation the left vector counts in units of the right one's size. -/
theorem append_toNat {m n : Nat} (x : BitVec m) (y : BitVec n) :
    (x ++ y).toNat = x.toNat * 2 ^ n + y.toNat := by
  rw [BitVec.toNat_append, ← Nat.shiftLeft_add_eq_or_of_lt y.isLt, Nat.shiftLeft_eq]

/-- The five fields of R51 at their weights. -/
theorem layout_toNat (op : Opcode) (ma mb : BitVec 2) (fa fb : Field) :
    (op ++ ma ++ mb ++ fa ++ fb).toNat =
      op.toNat * 2 ^ 28 + ma.toNat * 2 ^ 26 + mb.toNat * 2 ^ 24 + fa.toNat * 2 ^ 12 + fb.toNat := by
  simp only [append_toNat]
  omega

/-- An integer that fits the width is the number its bits hold. -/
theorem ofInt_toNat_of_lt {n : Nat} {x : Int} (h0 : 0 ≤ x) (h : x < 2 ^ n) :
    ((BitVec.ofInt n x).toNat : Int) = x := by
  rw [BitVec.toNat_ofInt, Int.toNat_of_nonneg (Int.emod_nonneg _ (by positivity))]
  exact Int.emod_eq_of_lt h0 (by exact_mod_cast h)

/-! ### The two outcomes of `Encode` -/

section
variable {opcode modeA fieldA modeB fieldB : Int}

/-- One argument out of range is enough for `Encode` to fail (`30_encoding.md` R53). -/
theorem encodeArgs_error (h : opcode < 0 ∨ 7 < opcode ∨ modeA < 0 ∨ 3 < modeA ∨ fieldA < 0 ∨
    4095 < fieldA ∨ modeB < 0 ∨ 3 < modeB ∨ fieldB < 0 ∨ 4095 < fieldB) :
    ∃ e, encodeArgs opcode modeA fieldA modeB fieldB = .error e := by
  unfold encodeArgs
  split_ifs
  case neg => omega
  all_goals exact ⟨_, rfl⟩

section
variable (hop : 0 ≤ opcode ∧ opcode ≤ 7) (hma : 0 ≤ modeA ∧ modeA ≤ 3)
    (hfa : 0 ≤ fieldA ∧ fieldA ≤ 4095) (hmb : 0 ≤ modeB ∧ modeB ≤ 3)
    (hfb : 0 ≤ fieldB ∧ fieldB ≤ 4095)
include hop hma hfa hmb hfb

/-- Arguments that fit their fields pack to the weighted sum of R53. -/
theorem layout_ofInt_toNat :
    ((BitVec.ofInt 4 opcode ++ BitVec.ofInt 2 modeA ++ BitVec.ofInt 2 modeB ++
        BitVec.ofInt 12 fieldA ++ BitVec.ofInt 12 fieldB).toNat : Int) =
      opcode * 2 ^ 28 + modeA * 2 ^ 26 + modeB * 2 ^ 24 + fieldA * 2 ^ 12 + fieldB := by
  rw [layout_toNat]
  push_cast
  rw [ofInt_toNat_of_lt hop.1 (by omega), ofInt_toNat_of_lt hma.1 (by omega),
    ofInt_toNat_of_lt hmb.1 (by omega), ofInt_toNat_of_lt hfa.1 (by omega),
    ofInt_toNat_of_lt hfb.1 (by omega)]

/-- `Encode` answers the layout packing of arguments that fit (`30_encoding.md` R53). -/
theorem encodeArgs_eq_layout :
    encodeArgs opcode modeA fieldA modeB fieldB =
      .ok (BitVec.ofInt 4 opcode ++ BitVec.ofInt 2 modeA ++ BitVec.ofInt 2 modeB ++
        BitVec.ofInt 12 fieldA ++ BitVec.ofInt 12 fieldB) := by
  have hsum := layout_ofInt_toNat hop hma hfa hmb hfb
  rw [encodeArgs, if_neg (by omega), if_neg (by omega), if_neg (by omega), if_neg (by omega),
    if_neg (by omega), ← hsum, BitVec.ofInt_natCast, BitVec.ofNat_toNat, BitVec.setWidth_eq]

end

end

/-! ### Bit 31 -/

/-- Bit 31 is the top bit of the opcode, so it is set exactly for opcodes 8 to 15. -/
theorem bit31_set_iff (w : Word) :
    w &&& 0x80000000#32 = 0x80000000#32 ↔ 8 ≤ (decodeFields w).opcode.toNat := by
  have hmask : w &&& 0x80000000#32 = if w.getLsbD 31 then 0x80000000#32 else 0#32 :=
    BitVec.and_twoPow w 31
  have hop : w.getLsbD 31 = decide (8 ≤ (decodeFields w).opcode.toNat) := by
    calc w.getLsbD 31 = (decodeFields w).opcode.msb := by
          simp [BitVec.msb_eq_getLsbD_last, decodeFields]
      _ = decide (8 ≤ (decodeFields w).opcode.toNat) := BitVec.msb_eq_decide _
  rw [hmask, hop]
  by_cases h : 8 ≤ (decodeFields w).opcode.toNat <;> simp [h]

/-- Only the opcode selects `illegal`, and it does so from 8 on (`30_encoding.md` R56, R57). -/
theorem instrOfFields_illegal_iff (f : Fields) :
    (∃ op a b, instrOfFields f = .illegal op a b) ↔ 8 ≤ f.opcode.toNat := by
  unfold instrOfFields
  split
  case h_9 =>
    simp only [imp_false] at *
    simp
    omega
  all_goals simp [*]

theorem isValid_eq_false_of_opcode {f : Fields} (h : 8 ≤ f.opcode.toNat) : isValid f = false := by
  have hop : ¬f.opcode.toNat ≤ 7 := by omega
  simp [isValid, hop]

theorem loadable_eq_false_iff (w : Word) :
    loadable w = false ↔ 8 ≤ (decodeFields w).opcode.toNat := by
  rw [loadable, decide_eq_false_iff_not]
  omega

/-- The handler of an illegal opcode names no cell to write. -/
theorem writeTarget_illegal (op : Opcode) (a b : Operand) (s : State) :
    writeTarget (.illegal op a b) s = none := by
  rw [writeTarget, effectOf_illegal]
  rfl

/-! ### The statements -/

/-- Settles O4: the value by `encodeArgs_eq_layout`, the failing inputs by `encodeArgs_error`. -/
theorem toolchainEncodeValueAndFailures : Obligations.ToolchainEncodeValueAndFailures := by
  refine fun opcode modeA fieldA modeB fieldB => ⟨?_, encodeArgs_error⟩
  rintro ⟨op0, op7, ma0, ma3, fa0, faMax, mb0, mb3, fb0, fbMax⟩
  exact ⟨_, encodeArgs_eq_layout ⟨op0, op7⟩ ⟨ma0, ma3⟩ ⟨fa0, faMax⟩ ⟨mb0, mb3⟩ ⟨fb0, fbMax⟩,
    layout_ofInt_toNat ⟨op0, op7⟩ ⟨ma0, ma3⟩ ⟨fa0, faMax⟩ ⟨mb0, mb3⟩ ⟨fb0, fbMax⟩, rfl⟩

/-- Settles O18: every clause about words turns on the opcode by `bit31_set_iff`. -/
theorem illegalOpcodesViolate : Obligations.IllegalOpcodesViolate := by
  refine ⟨fun w => ?_, fun s op a b _ => ?_, fun w hw => ?_, fun _ _ _ _ _ h => ?_⟩
  · rw [bit31_set_iff]
    exact instrOfFields_illegal_iff (decodeFields w)
  · obtain ⟨t, ht, hV⟩ := exec_of_violation (effectOf_illegal s op a b)
    exact ⟨t, ht, hV, writeTarget_illegal op a b s⟩
  · have hop := (bit31_set_iff w).1 hw
    exact ⟨isValid_eq_false_of_opcode hop, (loadable_eq_false_iff w).2 hop⟩
  · exact encodeArgs_error (.inr (.inl (by omega)))

end Sys2Proof.Machine
end

section
/-! PROOFS. The tick and the operands (`40_tick_and_operands.md`): the pointer advance on natural numbers,
what a tick leaves in `turn` and in `last`, what each mode resolves to, and the statements about them. -/

namespace Sys2Proof.Machine

/-! ### The pointer advance -/

/-- An advance by a natural number has only ordinary moduli. -/
theorem incr_natCast (L ip0 n : Nat) : incr L ip0 (n : Int) = (ip0 + n) % 4096 % L :=
  fold_natCast L (ip0 + n)

/-- From the last cell, an advance of `n + 1` lands where `Fold(L + n)` does. -/
theorem incr_last {L : Nat} (hL : 0 < L) (n : Nat) :
    incr L (L - 1) ((n + 1 : Nat) : Int) = (L + n) % 4096 % L := by
  have hsum : L - 1 + (n + 1) = L + n := by omega
  rw [incr_natCast, hsum]

theorem incr_last_one {L : Nat} (hL : 0 < L) (hmax : L ≤ 4096) : incr L (L - 1) 1 = 0 := by
  have hlast : incr L (L - 1) 1 = L % 4096 % L := incr_last hL 0
  obtain hlt | rfl := Nat.lt_or_eq_of_le hmax
  · rw [hlast, Nat.mod_eq_of_lt hlt, Nat.mod_self]
  · exact hlast

/-- Below 4095 cells the first modulus leaves `L + 1` alone, so only the second wraps. -/
theorem incr_last_two {L : Nat} (h2 : 2 ≤ L) (hmax : L ≤ 4094) : incr L (L - 1) 2 = 1 := by
  have hlast : incr L (L - 1) 2 = (L + 1) % 4096 % L := incr_last (by omega) 1
  have hsmall : L + 1 < 4096 := by omega
  rw [hlast, Nat.mod_eq_of_lt hsmall, Nat.add_mod_left, Nat.mod_eq_of_lt h2]

/-- In a core of more than 4096 cells the second modulus changes nothing. -/
theorem incr_natCast_of_lt {L : Nat} (hL : 4096 < L) (ip0 n : Nat) :
    incr L ip0 (n : Int) = (ip0 + n) % 4096 := by
  have hmod : (ip0 + n) % 4096 < 4096 := Nat.mod_lt _ (by decide)
  rw [incr_natCast, Nat.mod_eq_of_lt (hmod.trans hL)]

/-! ### The turn -/

/-- A tick passes the turn, whatever the instruction does (`40_tick_and_operands.md` R95). -/
theorem step_turn {s t : State} (he : s.ended = false) (h : step s = .next t) :
    t.turn = other s.turn := by
  obtain ⟨he', -⟩ | ⟨-, h⟩ := step_next_cases h
  · simp [he] at he'
  · obtain ⟨hturn, -⟩ := exec_common h
    exact hturn

/-- The violating tick passes the turn to the winner. -/
theorem step_winner_turn {s t : State} (he : s.ended = false) (hv : s.violated = false)
    (h : step s = .next t) (ht : t.violated = true) : t.winner = some t.turn := by
  obtain ⟨he', -⟩ | ⟨hr, -⟩ := step_next_cases h
  · simp [he] at he'
  obtain ⟨-, hV⟩ | ⟨_, _, -, hF, -, -⟩ := step_tick_cases hr hv h
  · rw [hV.winner, hV.turn]
  · simp [hF.violated, hv] at ht

/-- A run that has not ended has passed the turn once per step. -/
theorem runFor_turn {s t : State} {n : Nat} (h : runFor n s = .next t) (ht : t.ended = false) :
    t.turn = other^[n] s.turn := by
  induction n generalizing s with
  | zero =>
    obtain rfl : s = t := by simpa [runFor] using h
    rfl
  | succ n ih =>
    obtain ⟨u, hu, hrun⟩ := runFor_succ_next h
    cases he : s.ended with
    | true =>
      rw [runFor_of_ended he] at h
      obtain rfl : s = t := by simpa using h
      simp [he] at ht
    | false => rw [ih hrun, step_turn he hu, Function.iterate_succ_apply]

/-- Passing the turn twice returns it, so only the parity of the number of passes counts. -/
theorem other_iterate (n : Nat) (p : ProgramId) :
    other^[n] p = if n % 2 = 0 then p else other p := by
  have hinv : Function.Involutive other := other_other
  split
  case isTrue h => rw [hinv.iterate_even (Nat.even_iff.2 h), id]
  case isFalse h => rw [hinv.iterate_odd (Nat.odd_iff.2 (by omega))]

/-! ### The record of the tick -/

/-- The instruction an opcode selects keeps all five fields. -/
theorem instrFields_instrOfFields (f : Fields) : instrFields (instrOfFields f) = f := by
  have hop : ∀ n, f.opcode.toNat = n → BitVec.ofNat 4 n = f.opcode := by
    rintro _ rfl
    simp
  unfold instrOfFields
  split
  case h_9 => rfl
  all_goals
    rename_i hn
    simp only [instrFields, hop _ hn]

@[simp] theorem instrFields_decode (w : Word) : instrFields (decode w) = decodeFields w :=
  instrFields_instrOfFields _

/-- A tick records the fetched word's fields and operands as they were before it. -/
theorem step_last {s t : State} (hr : s.Ready) (h : step s = .next t) :
    t.last = some (s.latch (decodeFields s.fetchWord)) := by
  rw [step_of_ready hr] at h
  obtain ⟨-, hlast, -⟩ := exec_common h
  rw [hlast, beginPlay_latch, State.fetchInstr, instrFields_decode]

/-! ### The resolver by mode -/

section
variable (m : Memory) (L ip0 : Nat) (f : Field)

theorem fieldWord_eq_ofNat : fieldWord f = BitVec.ofNat 32 f.toNat := (BitVec.ofNat_toNat 32 f).symm

theorem resolve_immediate : resolve m L ip0 ⟨.immediate, f⟩ = ⟨some (fieldWord f), none⟩ := rfl

theorem resolve_relative : resolve m L ip0 ⟨.relative, f⟩ =
    ⟨some (m.read (relativeAddr L ip0 f)), some (relativeAddr L ip0 f)⟩ := rfl

theorem resolve_indirect : resolve m L ip0 ⟨.indirect, f⟩ =
    ⟨some (m.read (indirectAddr m L ip0 f)), some (indirectAddr m L ip0 f)⟩ := rfl

theorem resolve_invalid : resolve m L ip0 ⟨.invalid, f⟩ = ⟨none, none⟩ := rfl

end

/-! ### The statements -/

/-- Settles O11: the integer form of `Fold`, and on natural numbers which of the two moduli wraps. -/
theorem incrWraps : Obligations.IncrWraps := by
  refine fun L hL => ⟨fun ip0 delta => ⟨incr_lt hL ip0 delta, fold_intCast L _⟩, incr_last_one hL,
    ?_, ?_, fun hlt => ⟨incr_natCast_of_lt hlt 4095 1, fun x _ => incr_natCast_of_lt hlt x 1⟩⟩
  · rintro (⟨h2, hmax⟩ | rfl)
    · exact incr_last_two h2 hmax
    · exact incr_last hL 1
  · rintro (rfl | rfl) <;> exact incr_last hL 1

/-- Settles O27: no tick occurs on an ended machine, so no instruction runs and every run stays. -/
theorem endedUpdateIsNoOp : Obligations.EndedUpdateIsNoOp := by
  intro s he
  exact ⟨by simp [updateReturns, he], by simp [onWriteEvent, he], runFor_of_ended he⟩

/-- Settles O35: one pass of the turn per tick, counted along the run. -/
theorem turnAlternates : Obligations.TurnAlternates := by
  refine ⟨fun _ _ => step_turn, fun _ _ => step_winner_turn, fun s t n hs h ht => ?_⟩
  rw [runFor_turn h ht, hs, other_iterate]
  rfl

/-- Settles O43: the record is latched from the state before the tick. -/
theorem lastRecordsTheTick : Obligations.LastRecordsTheTick :=
  fun _ _ => step_last

/-- Settles O13: the four modes' answers, with the two addresses of the model written as `Fold`. -/
theorem resolverByMode : Obligations.ResolverByMode := by
  intro m L ip0 f
  rw [resolve_immediate, fieldWord_eq_ofNat]
  exact ⟨rfl, resolve_relative m L ip0 f, resolve_indirect m L ip0 f, resolve_invalid m L ip0 f⟩

end Sys2Proof.Machine
end

section
/-! PROOFS. `dat` (`41_dat.md`): the mask of R110 as a test of the opcode, what `Decode` reads back from the
layout, and the statement about it. -/

namespace Sys2Proof.Machine

/-! ### The opcode's mask -/

/-- The mask `0xF0000000` keeps the opcode and clears the other 28 bits (`30_encoding.md` R51). -/
theorem opcode_mask (w : Word) : w &&& 0xF0000000#32 = (decodeFields w).opcode ++ 0#28 := by
  have hw : w.extractLsb' 28 4 ++ w.extractLsb' 0 28 = w := BitVec.extractLsb'_append_extractLsb'
  have hmask : BitVec.allOnes 4 ++ 0#28 = 0xF0000000#32 := rfl
  calc w &&& 0xF0000000#32
      = (w.extractLsb' 28 4 ++ w.extractLsb' 0 28) &&& (BitVec.allOnes 4 ++ 0#28) := by rw [hw, hmask]
    _ = w.extractLsb' 28 4 ++ 0#28 := by rw [BitVec.and_append, BitVec.and_allOnes, BitVec.and_zero]

/-- A word matches an opcode's row under the mask exactly when `Decode` reads that opcode. -/
theorem opcode_mask_eq_iff (w : Word) (op : Opcode) :
    w &&& 0xF0000000#32 = op ++ 0#28 ↔ (decodeFields w).opcode = op := by
  rw [opcode_mask]
  exact BitVec.append_left_inj _

/-- Opcode 0 alone selects `dat`, whatever the other 28 bits are. -/
theorem decode_dat_iff (w : Word) :
    (∃ a b, decode w = .dat a b) ↔ (decodeFields w).opcode = 0#4 := by
  constructor
  · rintro ⟨a, b, h⟩
    rw [← instrFields_decode, h, instrFields]
  · intro h
    exact ⟨(decodeFields w).a, (decodeFields w).b, by simp [decode, instrOfFields, h]⟩

/-! ### `Decode` after the layout -/

/-- The two modes and the two fields, cut out of the layout at the positions R51 gives them. -/
theorem layout_extract (op : Opcode) (ma mb : BitVec 2) (fa fb : Field) :
    (op ++ ma ++ mb ++ fa ++ fb).extractLsb' 26 2 = ma ∧
      (op ++ ma ++ mb ++ fa ++ fb).extractLsb' 24 2 = mb ∧
      (op ++ ma ++ mb ++ fa ++ fb).extractLsb' 12 12 = fa ∧
      (op ++ ma ++ mb ++ fa ++ fb).extractLsb' 0 12 = fb := by
  simp only [← BitVec.toNat_inj, BitVec.extractLsb'_toNat, layout_toNat, Nat.shiftRight_eq_div_pow]
  omega

/-- The layout loses no field: `Decode` reads back all five (`30_encoding.md` R51, R52). -/
@[simp] theorem decodeFields_encodeFields (f : Fields) : decodeFields (encodeFields f) = f := by
  obtain ⟨hma, hmb, hfa, hfb⟩ :=
    layout_extract f.opcode (modeBits f.a.mode) (modeBits f.b.mode) f.a.field f.b.field
  rw [decodeFields, encodeFields_opcode, encodeFields, hma, hmb, hfa, hfb, modeOfBits_modeBits,
    modeOfBits_modeBits]

@[simp] theorem decodeFields_encode (i : Instr) : decodeFields (encode i) = instrFields i :=
  decodeFields_encodeFields _

/-- `IsValid` asks for an opcode up to 7 and two legal modes (`30_encoding.md` R54). -/
theorem isValid_iff (f : Fields) :
    isValid f = true ↔ f.opcode.toNat ≤ 7 ∧ f.a.HasValue ∧ f.b.HasValue := by
  simp [isValid, and_assoc]

theorem loadable_encode_iff (i : Instr) :
    loadable (encode i) = true ↔ (instrFields i).opcode.toNat ≤ 7 := by
  rw [loadable, decodeFields_encode, decide_eq_true_iff]

/-! ### The statement -/

/-- The handler of `dat` names no cell to write. -/
theorem writeTarget_dat (a b : Operand) (s : State) : writeTarget (.dat a b) s = none := by
  rw [writeTarget, effectOf_dat]
  rfl

/-- Settles O17: the mask by `opcode_mask_eq_iff` at opcode 0, the effect by `exec_of_violation`, and what
the loader and `IsValid` see by `decodeFields_encode`. -/
theorem datAlwaysViolates : Obligations.DatAlwaysViolates := by
  refine ⟨fun w => ?_, fun s a b => ?_, fun a b => ⟨?_, fun ha hb => ?_⟩⟩
  · exact (decode_dat_iff w).trans (opcode_mask_eq_iff w 0#4).symm
  · obtain ⟨t, ht, hV⟩ := exec_of_violation (effectOf_dat s a b)
    exact ⟨t, ht, hV, writeTarget_dat a b s⟩
  · exact (loadable_encode_iff _).2 (Nat.zero_le 7)
  · rw [decodeFields_encode]
    exact (isValid_iff _).2 ⟨Nat.zero_le 7, ha, hb⟩

end Sys2Proof.Machine
end

section
/-! PROOFS. `mov`, `add` and `sub` (`42_mov_add_sub.md`): a row of the opcode table as a mask test, the
whole effect of an instruction that writes one cell or violates, the modes that violate, and the statements
about the three instructions. -/

namespace Sys2Proof.Machine

/-! ### A row of the opcode table -/

/-- A constructor that `Decode` and the layout both pair with opcode `op` is selected by the mask test of
its row (`30_encoding.md` R51, R56). -/
theorem decode_row_iff {c : Operand → Operand → Instr} {op : Opcode}
    (hfields : ∀ a b, instrFields (c a b) = ⟨op, a, b⟩)
    (hinstr : ∀ a b, instrOfFields ⟨op, a, b⟩ = c a b) (w : Word) :
    (∃ a b, decode w = c a b) ↔ w &&& 0xF0000000#32 = op ++ 0#28 := by
  rw [opcode_mask_eq_iff]
  constructor
  · rintro ⟨a, b, h⟩
    rw [← instrFields_decode, h, hfields]
  · rintro rfl
    exact ⟨_, _, hinstr (decodeFields w).a (decodeFields w).b⟩

/-! ### The whole effect of an instruction -/

/-- An instruction whose handler writes one cell and does not jump. -/
theorem exec_of_write {i : Instr} {s : State} {d : Nat} {x : Word} (hv : s.violated = false)
    (h : effectOf i s = .done (some (d, x)) none) :
    ∃ t, exec i s = .next t ∧ OneCellWritten s t d x ∧
      t.ip s.turn = incr s.coreLen (s.ip s.turn) 1 ∧ TickFrame s t (instrFields i) ∧
      writeTarget i s = some d := by
  obtain ⟨t, ht, hframe, hmem, hip⟩ := exec_of_done hv h
  rw [applyWrite_some_mem] at hmem
  have hcell : OneCellWritten s t d x := by
    rw [OneCellWritten, hmem]
    exact ⟨Memory.read_write_same _ _ _, fun _ => Memory.read_write_other _ _⟩
  exact ⟨t, ht, hcell, hip, hframe, by rw [writeTarget, h]; rfl⟩

/-- A violation emits no write event. -/
theorem exec_of_violation_no_write {i : Instr} {s : State} (h : effectOf i s = .violation) :
    ∃ t, exec i s = .next t ∧ Violates s t (instrFields i) ∧ writeTarget i s = none := by
  obtain ⟨t, ht, hV⟩ := exec_of_violation h
  exact ⟨t, ht, hV, by rw [writeTarget, h]; rfl⟩

/-- Where the opcode or a mode violates, the handler raises Violation in every state
(`40_tick_and_operands.md` R90): the first missing operand decides, whatever the others are. -/
theorem effectOf_of_violatesByMode {i : Instr} (s : State) (h : ViolatesByMode i) :
    effectOf i s = .violation := by
  cases i with
  | dat a b => exact effectOf_dat s a b
  | mov a b =>
    obtain ha | hb := h
    · rw [effectOf_mov, valueOf_eq_none ha]
    · simp [effectOf_mov, addrOf_eq_none hb]
  | add a b =>
    obtain ha | hb := h
    · rw [effectOf_add, valueOf_eq_none ha]
    · simp [effectOf_add, addrOf_eq_none hb]
  | sub a b =>
    obtain ha | hb := h
    · rw [effectOf_sub, valueOf_eq_none ha]
    · simp [effectOf_sub, addrOf_eq_none hb]
  | jmp a b => rw [effectOf_jmp, addrOf_eq_none h]
  | jmz a b =>
    obtain ha | hb := h
    · rw [effectOf_jmz, valueOf_eq_none ha]
    · simp [effectOf_jmz, addrOf_eq_none hb]
  | djz a b =>
    obtain ha | hb := h
    · rw [effectOf_djz, addrOf_eq_none ha]
    · simp [effectOf_djz, addrOf_eq_none hb]
  | cmp a b =>
    obtain ha | hb := h
    · rw [effectOf_cmp, valueOf_eq_none ha]
    · simp [effectOf_cmp, valueOf_eq_none hb]
  | illegal op a b => exact effectOf_illegal s op a b

/-- An instruction that violates by its opcode and modes takes the violation from every state. -/
theorem exec_of_violatesByMode {i : Instr} (s : State) (h : ViolatesByMode i) :
    ∃ t, exec i s = .next t ∧ Violates s t (instrFields i) ∧ writeTarget i s = none :=
  exec_of_violation_no_write (effectOf_of_violatesByMode s h)

/-! ### The difference -/

/-- The floor modulus of `subMod` as the additive complement on natural numbers, `a` reduced first so that
`4096 - a` does not go below zero (`42_mov_add_sub.md` R117). -/
theorem subMod_eq_ofNat (a b : Word) :
    subMod a b = BitVec.ofNat 32 ((b.toNat + (4096 - a.toNat % 4096)) % 4096) := by
  have hsub := subMod_toNat a b
  rw [← BitVec.toNat_inj, BitVec.toNat_ofNat]
  omega

/-! ### The statements -/

/-- Settles O19: the row by `decode_row_iff`, the copy by `exec_of_write`, a missing operand by
`exec_of_violatesByMode`. -/
theorem movCopiesTheWholeWord : Obligations.MovCopiesTheWholeWord := by
  refine ⟨decode_row_iff (op := 1#4) (fun _ _ => rfl) (fun _ _ => rfl), ?_,
    fun s a b => exec_of_violatesByMode (i := .mov a b) s⟩
  intro s a b va db hv ha hdb
  exact exec_of_write hv (by rw [effectOf_mov, ha, hdb])

/-- Settles O20: as `mov`, with `addMod` the sum. -/
theorem addWritesTheSum : Obligations.AddWritesTheSum := by
  refine ⟨decode_row_iff (op := 2#4) (fun _ _ => rfl) (fun _ _ => rfl), ?_,
    fun s a b => exec_of_violatesByMode (i := .add a b) s⟩
  intro s a b va vb db hv ha hb hdb
  exact exec_of_write hv (by rw [effectOf_add, ha, hb, hdb]; rfl)

/-- Settles O21: as `mov`, with the difference by `subMod_eq_ofNat`. -/
theorem subWritesTheDifference : Obligations.SubWritesTheDifference := by
  refine ⟨decode_row_iff (op := 3#4) (fun _ _ => rfl) (fun _ _ => rfl), ?_,
    fun s a b => exec_of_violatesByMode (i := .sub a b) s⟩
  intro s a b va vb db hv ha hb hdb
  exact exec_of_write hv (by rw [← subMod_eq_ofNat, effectOf_sub, ha, hb, hdb])

end Sys2Proof.Machine
end

section
/-! PROOFS. `jmp`, `jmz`, `djz` and `cmp` (`43_jmp_jmz_djz_cmp.md`): the whole effect of an instruction that
sets the pointer itself, with or without a write, each handler's answer with its test as a condition on
numbers, and the statements about the four instructions. -/

namespace Sys2Proof.Machine

/-! ### The whole effect of an instruction -/

/-- No write leaves every cell alone. -/
theorem sameMemory_of_mem {s t : State} (h : t.mem = (s.applyWrite none).mem) : SameMemory s t := by
  rw [applyWrite_none_mem] at h
  exact ⟨h, fun addr => by rw [h]⟩

/-- One write changes its cell alone. -/
theorem oneCellWritten_of_mem {s t : State} {d : Nat} {x : Word}
    (h : t.mem = (s.applyWrite (some (d, x))).mem) : OneCellWritten s t d x := by
  rw [applyWrite_some_mem] at h
  rw [OneCellWritten, h]
  exact ⟨Memory.read_write_same _ _ _, fun _ => Memory.read_write_other _ _⟩

/-- The write event of a handler that completes names the cell it writes, jump or not. -/
theorem writeTarget_of_done {i : Instr} {s : State} {write : Option (Nat × Word)} {jump : Option Nat}
    (h : effectOf i s = .done write jump) : writeTarget i s = write.map Prod.fst := by
  rw [writeTarget, h]
  cases write <;> rfl

/-- An instruction whose handler writes no cell. -/
theorem exec_of_no_write {i : Instr} {s : State} {jump : Option Nat} (hv : s.violated = false)
    (h : effectOf i s = .done none jump) :
    ∃ t, exec i s = .next t ∧ SameMemory s t ∧
      t.ip s.turn = jump.getD (incr s.coreLen (s.ip s.turn) 1) ∧ TickFrame s t (instrFields i) ∧
      writeTarget i s = none := by
  obtain ⟨t, ht, hframe, hmem, hip⟩ := exec_of_done hv h
  exact ⟨t, ht, sameMemory_of_mem hmem, hip, hframe, writeTarget_of_done h⟩

/-- An instruction whose handler writes one cell, whether or not it jumps. -/
theorem exec_of_write_jump {i : Instr} {s : State} {d : Nat} {x : Word} {jump : Option Nat}
    (hv : s.violated = false) (h : effectOf i s = .done (some (d, x)) jump) :
    ∃ t, exec i s = .next t ∧ OneCellWritten s t d x ∧
      t.ip s.turn = jump.getD (incr s.coreLen (s.ip s.turn) 1) ∧ TickFrame s t (instrFields i) ∧
      writeTarget i s = some d := by
  obtain ⟨t, ht, hframe, hmem, hip⟩ := exec_of_done hv h
  exact ⟨t, ht, oneCellWritten_of_mem hmem, hip, hframe, writeTarget_of_done h⟩

/-- A handler that jumps on a condition, with the default advance of step 6 filled in
(`40_tick_and_operands.md` R93). -/
theorem getD_jump_if (c : Prop) [Decidable c] (target advanced : Nat) :
    (if c then some target else none).getD advanced = if c then target else advanced := by
  split <;> rfl

/-! ### The tests -/

/-- The word `djz` writes, as the additive complement on natural numbers (`43_jmp_jmz_djz_cmp.md` R132). -/
theorem decMod_eq_ofNat (v : Word) : decMod v = BitVec.ofNat 32 ((v.toNat + 4095) % 4096) := by
  rw [← decMod_toNat, BitVec.ofNat_toNat, BitVec.setWidth_eq]

/-- `jmz` tests all 32 bits of A's value (`43_jmp_jmz_djz_cmp.md` R131). -/
theorem effectOf_jmz_some {s : State} {a b : Operand} {va : Word} {db : Nat}
    (ha : s.valueOf a = some va) (hb : s.addrOf b = some db) :
    effectOf (.jmz a b) s = .done none (if va.toNat = 0 then some db else none) := by
  simp only [effectOf_jmz, ha, hb, isZero_iff]

/-- `djz` tests the 12-bit result it writes, not the old word (`43_jmp_jmz_djz_cmp.md` R132). -/
theorem effectOf_djz_some {s : State} {a b : Operand} {da db : Nat}
    (ha : s.addrOf a = some da) (hb : s.addrOf b = some db) :
    effectOf (.djz a b) s =
      .done (some (da, BitVec.ofNat 32 (((s.mem.read da).toNat + 4095) % 4096)))
        (if ((s.mem.read da).toNat + 4095) % 4096 = 0 then some db else none) := by
  simp only [effectOf_djz, ha, hb, isZero_iff, decMod_toNat, ← decMod_eq_ofNat]

/-- `cmp` compares all 32 bits of the two values (`43_jmp_jmz_djz_cmp.md` R133). -/
theorem effectOf_cmp_some {s : State} {a b : Operand} {va vb : Word}
    (ha : s.valueOf a = some va) (hb : s.valueOf b = some vb) :
    effectOf (.cmp a b) s =
      .done none (if va.toNat ≠ vb.toNat then some (incr s.coreLen (s.ip s.turn) 2) else none) := by
  simp only [effectOf_cmp, ha, hb, differ_iff]

/-! ### The statements -/

/-- Settles O22: the row by `decode_row_iff`, the jump by `exec_of_no_write`, a B without an address by
`exec_of_violatesByMode`. -/
theorem jmpGoesToB : Obligations.JmpGoesToB := by
  refine ⟨decode_row_iff (op := 4#4) (fun _ _ => rfl) (fun _ _ => rfl), ?_,
    fun s a b => exec_of_violatesByMode (i := .jmp a b) s⟩
  intro s a b db hv hdb
  exact exec_of_no_write (jump := some db) hv (by rw [effectOf_jmp, hdb])

/-- Settles O23: as `jmp`, with the target under the test of `effectOf_jmz_some`. -/
theorem jmzTestsTheWholeWord : Obligations.JmzTestsTheWholeWord := by
  refine ⟨decode_row_iff (op := 5#4) (fun _ _ => rfl) (fun _ _ => rfl), ?_,
    fun s a b => exec_of_violatesByMode (i := .jmz a b) s⟩
  intro s a b va db hv ha hdb
  rw [← getD_jump_if]
  exact exec_of_no_write hv (effectOf_jmz_some ha hdb)

/-- Settles O24: the handler's answer by `effectOf_djz_some`, its write and jump together by
`exec_of_write_jump`; both addresses are latched before the write. -/
theorem djzDecrementsAndTests : Obligations.DjzDecrementsAndTests := by
  refine ⟨decode_row_iff (op := 6#4) (fun _ _ => rfl) (fun _ _ => rfl), ?_,
    fun s a b => exec_of_violatesByMode (i := .djz a b) s⟩
  intro s a b da db hv hda hdb
  rw [← getD_jump_if]
  exact exec_of_write_jump hv (effectOf_djz_some hda hdb)

/-- Settles O25: the skip is a jump of `cmp`'s own to the advance by 2, taken when the values differ. -/
theorem cmpSkipsWhenUnequal : Obligations.CmpSkipsWhenUnequal := by
  refine ⟨decode_row_iff (op := 7#4) (fun _ _ => rfl) (fun _ _ => rfl), ?_,
    fun s a b => exec_of_violatesByMode (i := .cmp a b) s⟩
  intro s a b va vb hv ha hb
  rw [← ite_not, ← getD_jump_if]
  exact exec_of_no_write hv (effectOf_cmp_some ha hb)

end Sys2Proof.Machine
end

section
/-! PROOFS. The violation (`60_exceptions.md`): the frame of a violating tick as one equation of states, and
the statement about it. -/

namespace Sys2Proof.Machine

/-- The frame lists every field of the state, so it fixes the state after the violation. -/
theorem eq_of_violates {s t : State} {f : Fields} (h : Violates s t f) :
    t = { s with violated := true, ended := true, winner := some (other s.turn), turn := other s.turn,
                 last := some (s.latch f) } := by
  obtain ⟨hmem, hipA, hipB, hturn, hviolated, hended, hwinner, hlast, hcoreLen, hsetA, hsetB,
    hstarted⟩ := h
  cases t
  subst hmem hipA hipB hturn hviolated hended hwinner hlast hcoreLen hsetA hsetB hstarted
  rfl

/-- Only the taken violation sets the flag: a tick that leaves it set has the violation's frame. -/
theorem violates_of_step {s t : State} (hr : s.Ready) (hv : s.violated = false)
    (h : step s = .next t) (ht : t.violated = true) :
    Violates s.beginPlay t (instrFields s.fetchInstr) := by
  obtain ⟨-, hV⟩ | ⟨_, _, -, hF, -, -⟩ := step_tick_cases hr hv h
  · exact hV
  · simp [hF.violated, hv] at ht

theorem updateReturns_of_ready {s : State} (hr : s.Ready) : updateReturns s = true := by
  obtain ⟨-, he, -⟩ := hr
  simp [updateReturns, he]

/-! ### The statement -/

/-- Settles O39: the violation's frame as an equation, taken from the state in which play has begun; that
mark is all in which it differs from the state before the tick. -/
theorem violationIsPrecise : Obligations.ViolationIsPrecise := by
  intro s t hr hv h ht
  have heq := eq_of_violates (violates_of_step hr hv h ht)
  rw [beginPlay_latch] at heq
  have hip : t.ip s.turn = s.ip s.turn := by rw [heq]; cases s.turn <;> rfl
  exact ⟨heq, hip, updateReturns_of_ready hr⟩

end Sys2Proof.Machine
end

section
/-! PROOFS. The codec (`30_encoding.md`): `decode` and `encode` as inverses, the toolchain's `Encode` on the
fields `Decode` reads, and the words written out in the spec. -/

namespace Sys2Proof.Machine

/-! ### The two codecs as inverses -/

/-- From opcode 8 on the opcode selects `illegal` (`30_encoding.md` R57). -/
theorem instrOfFields_of_illegal {f : Fields} (h : 8 ≤ f.opcode.toNat) :
    instrOfFields f = .illegal f.opcode f.a f.b := by
  obtain ⟨op, a, b, hi⟩ := (instrOfFields_illegal_iff f).2 h
  have hf := instrFields_instrOfFields f
  rw [hi] at hf
  rw [hi, ← hf, instrFields]

theorem wellFormed_illegal_iff {op : Opcode} {a b : Operand} :
    (Instr.illegal op a b).WellFormed ↔ 8 ≤ op.toNat := decide_eq_true_iff

/-- A well-formed instruction is the one its own fields select. -/
theorem instrOfFields_instrFields {i : Instr} (h : i.WellFormed) : instrOfFields (instrFields i) = i := by
  cases i with
  | illegal op a b => exact instrOfFields_of_illegal (wellFormed_illegal_iff.1 h)
  | _ => rfl

/-- Every row of the opcode table makes well-formed instructions; only `illegal` has a condition. -/
theorem instrOfFields_wellFormed (f : Fields) : (instrOfFields f).WellFormed := by
  by_cases h : 8 ≤ f.opcode.toNat
  · exact instrOfFields_of_illegal h ▸ wellFormed_illegal_iff.2 h
  · cases hi : instrOfFields f with
    | illegal op a b => exact absurd ((instrOfFields_illegal_iff f).1 ⟨op, a, b, hi⟩) h
    | _ => rfl

theorem decode_wellFormed (w : Word) : (decode w).WellFormed := instrOfFields_wellFormed _

theorem decode_encode {i : Instr} (h : i.WellFormed) : decode (encode i) = i := by
  rw [decode, decodeFields_encode, instrOfFields_instrFields h]

/-- The five fields cover all 32 bits (`30_encoding.md` R51). -/
@[simp] theorem encodeFields_decodeFields (w : Word) : encodeFields (decodeFields w) = w := by
  simp only [encodeFields, decodeFields, modeBits_modeOfBits]
  rw [← BitVec.toNat_inj, layout_toNat]
  simp only [BitVec.extractLsb'_toNat, Nat.shiftRight_eq_div_pow]
  omega

theorem encode_decode (w : Word) : encode (decode w) = w := by
  rw [encode, instrFields_decode, encodeFields_decodeFields]

/-! ### The toolchain's `Encode` -/

/-- `Decode` reads back the five parts of any word written by the layout. -/
theorem decodeFields_layout (op : Opcode) (ma mb : BitVec 2) (fa fb : Field) :
    decodeFields (op ++ ma ++ mb ++ fa ++ fb) = ⟨op, ⟨modeOfBits ma, fa⟩, ⟨modeOfBits mb, fb⟩⟩ := by
  simpa [encodeFields] using
    decodeFields_encodeFields ⟨op, ⟨modeOfBits ma, fa⟩, ⟨modeOfBits mb, fb⟩⟩

/-- On natural numbers that fit, `Encode` answers their layout (`30_encoding.md` R53). -/
theorem encodeArgs_natCast {opcode modeA fieldA modeB fieldB : Nat} (hop : opcode ≤ 7) (hma : modeA ≤ 3)
    (hfa : fieldA < 4096) (hmb : modeB ≤ 3) (hfb : fieldB < 4096) :
    encodeArgs opcode modeA fieldA modeB fieldB = .ok (BitVec.ofNat 4 opcode ++ BitVec.ofNat 2 modeA ++
      BitVec.ofNat 2 modeB ++ BitVec.ofNat 12 fieldA ++ BitVec.ofNat 12 fieldB) := by
  rw [encodeArgs_eq_layout (by omega) (by omega) (by omega) (by omega) (by omega)]
  simp only [BitVec.ofInt_natCast]

/-- `Encode` packs the fields of legal opcodes as the layout does, mode 3 included. -/
theorem encodeArgs_fields {f : Fields} (h : f.opcode.toNat ≤ 7) :
    encodeArgs f.opcode.toNat (modeBits f.a.mode).toNat f.a.field.toNat (modeBits f.b.mode).toNat
      f.b.field.toNat = .ok (encodeFields f) := by
  rw [encodeArgs_natCast h (by omega) (by omega) (by omega) (by omega)]
  simp only [BitVec.ofNat_toNat, BitVec.setWidth_eq, encodeFields]

/-- The opcode is the first argument `Encode` looks at (`30_encoding.md` R53). -/
theorem encodeArgs_opcode_error {opcode : Int} (h : 7 < opcode) (modeA fieldA modeB fieldB : Int) :
    encodeArgs opcode modeA fieldA modeB fieldB = .error .opcode :=
  if_pos (.inr h)

/-! ### A number as a word -/

/-- A word below 4096 has every bit above field B clear (`30_encoding.md` section 4). -/
theorem encode_dat_number {n : Nat} (h : n < 4096) :
    encode (.dat ⟨.immediate, 0⟩ ⟨.immediate, BitVec.ofNat 12 n⟩) = BitVec.ofNat 32 n := by
  rw [← BitVec.toNat_inj]
  simp only [encode, encodeFields, instrFields, modeBits, layout_toNat, BitVec.ofNat_eq_ofNat,
    BitVec.toNat_ofNat]
  omega

/-! ### The statements -/

/-- Settles O1: `Decode` reads back the instruction's fields, which select the instruction. -/
theorem decodeInvertsEncode : Obligations.DecodeInvertsEncode :=
  fun _ => decode_encode

/-- Settles O2: the fields a word decodes to cover all its bits. -/
theorem encodeInvertsDecode : Obligations.EncodeInvertsDecode :=
  fun w => ⟨encode_decode w, decode_wellFormed w⟩

/-- Settles O3: `Encode` answers the layout, whose parts `Decode` reads back; above opcode 7 it fails. -/
theorem toolchainEncodeRoundTrip : Obligations.ToolchainEncodeRoundTrip := by
  constructor
  · intro opcode modeA fieldA modeB fieldB hop hma hfa hmb hfb
    refine ⟨_, encodeArgs_natCast hop hma hfa hmb hfb, ?_⟩
    simp only [decodeFields_layout, modeBits_modeOfBits, BitVec.toNat_ofNat]
    omega
  · intro w
    split
    case isTrue h => rw [encodeArgs_fields h, encodeFields_decodeFields]
    case isFalse h => exact encodeArgs_opcode_error (by omega) _ _ _ _

/-- Settles O5: five words of the layout, each decoded by evaluation. -/
theorem sampleWordsDecode : Obligations.SampleWordsDecode :=
  ⟨by decide, by decide, by decide, by decide, by decide⟩

/-- Settles O6: the number is the encoding of that `dat`. -/
theorem writtenNumberDecodesAsDat : Obligations.WrittenNumberDecodesAsDat := by
  intro n h
  rw [← encode_dat_number h]
  exact decode_encode rfl

end Sys2Proof.Machine
end

section
/-! PROOFS. The step as a whole (`40_tick_and_operands.md`, `10_state.md` section 11): what every step keeps,
that it is total on loaded machines, and what a handler can write into a cell. -/

namespace Sys2Proof.Machine

/-! ### What every step keeps -/

theorem step_pointersSet {s t : State} (h : step s = .next t) : t.pointersSet = s.pointersSet := by
  obtain ⟨-, rfl⟩ | ⟨-, h⟩ := step_next_cases h
  · rfl
  · obtain ⟨-, -, -, -, hA, hB, -⟩ := exec_common h
    rw [State.pointersSet, hA, hB]
    rfl

/-- An instruction answers a next state in every state (`60_exceptions.md` section 4). -/
theorem exec_answers_next (i : Instr) (s : State) : ∃ t, exec i s = .next t := ⟨_, exec_eq i s⟩

/-- A loaded machine with the invariant has ended or may take a tick. -/
theorem step_answers_next {s : State} (hs : s.Inv) (hp : s.pointersSet = true) :
    ∃ t, step s = .next t := by
  obtain ⟨hip, -, -⟩ := hs
  obtain ⟨-, hip⟩ := pointersInCore_iff.1 hip
  cases he : s.ended with
  | true => exact ⟨s, step_of_ended he⟩
  | false =>
    rw [step_of_ready ⟨hp, he, hip s.turn⟩]
    exact exec_answers_next _ _

theorem safeFor_of_inv {s : State} (hs : s.Inv) (hp : s.pointersSet = true) (n : Nat) : SafeFor n s := by
  induction n generalizing s with
  | zero => trivial
  | succ n ih =>
    obtain ⟨t, ht⟩ := step_answers_next hs hp
    exact ⟨t, ht, ih (step_keeps_inv hs ht) ((step_pointersSet ht).trans hp)⟩

/-! ### What a handler writes -/

/-- A handler's write is the one of `mov`, `add`, `sub` or `djz`. -/
theorem writesWord_of_effectOf {s : State} {d : Nat} {x : Word} {jump : Option Nat}
    (h : effectOf s.fetchInstr s = .done (some (d, x)) jump) : WritesWord s d x := by
  cases hi : s.fetchInstr with
  | dat a b => simp [hi, effectOf_dat] at h
  | mov a b =>
    rw [hi, effectOf_mov] at h
    split at h
    case h_1 va db ha hb =>
      obtain ⟨⟨rfl, rfl⟩, -⟩ := by simpa using h
      exact .mov a b hi ha hb
    case h_2 => simp at h
  | add a b =>
    rw [hi, effectOf_add] at h
    split at h
    case h_1 va vb db ha hb hdb =>
      obtain ⟨⟨rfl, rfl⟩, -⟩ := by simpa using h
      exact .add a b va vb hi ha hb hdb rfl
    case h_2 => simp at h
  | sub a b =>
    rw [hi, effectOf_sub] at h
    split at h
    case h_1 va vb db ha hb hdb =>
      obtain ⟨⟨rfl, rfl⟩, -⟩ := by simpa using h
      exact .sub a b va vb hi ha hb hdb (subMod_eq_ofNat va vb)
    case h_2 => simp at h
  | jmp a b => rw [hi, effectOf_jmp] at h; split at h <;> simp at h
  | jmz a b => rw [hi, effectOf_jmz] at h; split at h <;> simp at h
  | djz a b =>
    rw [hi, effectOf_djz] at h
    split at h
    case h_1 da db ha hb =>
      obtain ⟨⟨rfl, rfl⟩, -⟩ := by simpa using h
      refine .djz a b hi ha ?_ (decMod_eq_ofNat _)
      by_contra hn
      simp [addrOf_eq_none hn] at hb
    case h_2 => simp at h
  | cmp a b => rw [hi, effectOf_cmp] at h; split at h <;> simp at h
  | illegal op a b => simp [hi, effectOf_illegal] at h

theorem fieldWord_lt (f : Field) : (fieldWord f).toNat < 4096 :=
  (BitVec.toNat_setWidth_of_le (by decide)).trans_lt f.isLt

/-- An operand's value is a field, below 4096, or the word of a cell. -/
theorem valueOf_cases {s : State} {o : Operand} {x : Word} (h : s.valueOf o = some x) :
    x.toNat < 4096 ∨ ∃ addr, x = s.mem.read addr := by
  obtain ⟨m, f⟩ := o
  cases m with
  | immediate =>
    obtain rfl : fieldWord f = x := Option.some.inj h
    exact .inl (fieldWord_lt f)
  | relative => exact .inr ⟨_, (Option.some.inj h).symm⟩
  | indirect => exact .inr ⟨_, (Option.some.inj h).symm⟩
  | invalid => cases h

/-- Only `mov` writes a word of more than 12 bits, and that word stood in a cell
(`42_mov_add_sub.md` R115 to R118). -/
theorem writesWord_cases {s : State} {d : Nat} {x : Word} (h : WritesWord s d x) :
    x.toNat < 4096 ∨ ∃ addr, x = s.mem.read addr := by
  cases h with
  | mov a b hi ha hb => exact valueOf_cases ha
  | add a b va vb hi ha hb hdb hx => exact .inl (by rw [hx, BitVec.toNat_ofNat]; omega)
  | sub a b va vb hi ha hb hdb hx => exact .inl (by rw [hx, BitVec.toNat_ofNat]; omega)
  | djz a b hi ha hb hx => exact .inl (by rw [hx, BitVec.toNat_ofNat]; omega)

/-- The memory after an instruction, in every state: the handler's write and nothing else. -/
theorem exec_mem {i : Instr} {s t : State} (h : exec i s = .next t) :
    t.mem = s.mem ∨ ∃ d x jump, effectOf i s = .done (some (d, x)) jump ∧
      t.mem = Memory.write s.mem d x := by
  rw [exec_eq] at h
  obtain rfl := (by simpa using h.symm : t = _)
  match effectOf i s with
  | .violation => exact .inl rfl
  | .done none jump =>
    refine .inl ?_
    simp only [State.finishTick, State.finishDone]
    split <;> simp
  | .done (some (d, x)) jump =>
    refine .inr ⟨d, x, jump, rfl, ?_⟩
    simp only [State.finishTick, State.finishDone]
    split <;> simp

/-- The memory after a step, whatever the flags are. -/
theorem step_mem {s t : State} (h : step s = .next t) :
    t.mem = s.mem ∨ ∃ d x, WritesWord s d x ∧ t.mem = Memory.write s.mem d x := by
  obtain ⟨-, rfl⟩ | ⟨-, h⟩ := step_next_cases h
  · exact .inl rfl
  obtain hm | ⟨d, x, jump, heff, hm⟩ := exec_mem h
  · exact .inl hm
  · rw [beginPlay_effectOf] at heff
    exact .inr ⟨d, x, writesWord_of_effectOf heff, hm⟩

/-! ### Illegal words -/

/-- Bit 31 is the top bit of the opcode. -/
theorem getLsbD_31_eq_false_iff (w : Word) :
    w.getLsbD 31 = false ↔ (decodeFields w).opcode.toNat ≤ 7 := by
  have hmsb : (decodeFields w).opcode.msb = w.getLsbD 31 := by
    simp [BitVec.msb_eq_getLsbD_last, decodeFields]
  rw [← hmsb, BitVec.msb_eq_decide, decide_eq_false_iff_not]
  omega

theorem getLsbD_31_of_lt {w : Word} (h : w.toNat < 4096) : w.getLsbD 31 = false :=
  Nat.testBit_lt_two_pow (h.trans (by decide))

theorem noIllegalCell_write {s t : State} {d : Nat} {x : Word} (hs : s.NoIllegalCell)
    (hm : t.mem = Memory.write s.mem d x) (hx : x.getLsbD 31 = false) : t.NoIllegalCell := by
  intro addr
  rw [hm, Memory.read_write]
  split
  · exact hx
  · exact hs addr

theorem step_keeps_noIllegalCell {s t : State} (hs : s.NoIllegalCell) (h : step s = .next t) :
    t.NoIllegalCell := by
  obtain hm | ⟨d, x, hw, hm⟩ := step_mem h
  · intro addr
    rw [hm]
    exact hs addr
  · refine noIllegalCell_write hs hm ?_
    obtain hx | ⟨addr, rfl⟩ := writesWord_cases hw
    · exact getLsbD_31_of_lt hx
    · exact hs addr

theorem fetchInstr_ne_illegal {s : State} (hs : s.NoIllegalCell) (op : Opcode) (a b : Operand) :
    s.fetchInstr ≠ .illegal op a b := by
  intro h
  have hge : 8 ≤ (decodeFields s.fetchWord).opcode.toNat :=
    (instrOfFields_illegal_iff _).1 ⟨op, a, b, h⟩
  have hle := (getLsbD_31_eq_false_iff s.fetchWord).1 (hs s.activeIp)
  omega

/-! ### The statements -/

/-- Settles O32: the invariant by the two outcomes of a tick, the core length by what no instruction
changes. -/
theorem stepKeepsTheInvariant : Obligations.StepKeepsTheInvariant :=
  fun _ _ hs h => ⟨step_keeps_inv hs h, step_coreLen h⟩

/-- Settles O45: what a step writes has 12 bits or stood in a cell before. -/
theorem noIllegalCellIsMade : Obligations.NoIllegalCellIsMade := by
  intro s t hs h
  have ht := step_keeps_noIllegalCell hs h
  exact ⟨ht, fetchInstr_ne_illegal ht⟩

/-- Settles O54: progress by `step_answers_next`, preservation by the step lemmas. -/
theorem loadedStepAnswersNext : Obligations.LoadedStepAnswersNext := by
  intro s hs hp
  obtain ⟨t, ht⟩ := step_answers_next hs hp
  exact ⟨t, ht, step_keeps_inv hs ht, (step_pointersSet ht).trans hp, step_coreLen ht⟩

/-- Settles O34: the induction of `safeFor_of_inv`. -/
theorem loadedMachineNeverStops : Obligations.LoadedMachineNeverStops :=
  fun _ => safeFor_of_inv

end Sys2Proof.Machine
end

section
/-! PROOFS. The tick seen from outside (`10_state.md`, `40_tick_and_operands.md`): which pointers and cells it
changes, when it violates, what it does not read, and what the next tick sees of it. -/

namespace Sys2Proof.Machine

/-! ### The mode of an operand -/

theorem valueOf_isSome_iff (s : State) (o : Operand) : (s.valueOf o).isSome ↔ o.HasValue := by
  obtain ⟨m, f⟩ := o
  cases m <;> simp [operandValue]

theorem addrOf_isSome_iff (s : State) (o : Operand) : (s.addrOf o).isSome ↔ o.HasAddr := by
  obtain ⟨m, f⟩ := o
  cases m <;> simp [operandAddr, Operand.HasAddr]

theorem exists_valueOf {o : Operand} (s : State) (h : o.HasValue) : ∃ v, s.valueOf o = some v :=
  Option.isSome_iff_exists.1 ((valueOf_isSome_iff s o).2 h)

theorem exists_addrOf {o : Operand} (s : State) (h : o.HasAddr) : ∃ d, s.addrOf o = some d :=
  Option.isSome_iff_exists.1 ((addrOf_isSome_iff s o).2 h)

/-- A mode that gives an address gives a value too (`40_tick_and_operands.md` R89). -/
theorem hasValue_of_hasAddr {o : Operand} (h : o.HasAddr) : o.HasValue := by
  obtain hm | hm := h <;> simp [Operand.HasValue, hm]

/-- An Immediate value is its 12-bit field (`40_tick_and_operands.md` R85). -/
theorem valueOf_immediate {s : State} {o : Operand} (h : o.mode = .immediate) :
    s.valueOf o = some (fieldWord o.field) := by
  simp [operandValue, h]

/-- An operand address is a value of `Fold`, hence below 4096 for every core length. -/
theorem addrOf_lt_4096 {s : State} {o : Operand} {d : Nat} (h : s.addrOf o = some d) : d < 4096 := by
  obtain ⟨m, f⟩ := o
  cases m with
  | relative =>
    obtain rfl : relativeAddr s.coreLen (s.ip s.turn) f = d := Option.some.inj h
    exact fold_lt_4096 _ _
  | indirect =>
    obtain rfl : indirectAddr s.mem s.coreLen (s.ip s.turn) f = d := Option.some.inj h
    exact fold_lt_4096 _ _
  | immediate => cases h
  | invalid => cases h

/-! ### When a tick violates -/

/-- With every required operand there, the handler completes, in every state. -/
theorem effectOf_of_not_violatesByMode {i : Instr} (s : State) (h : ¬ViolatesByMode i) :
    ∃ write jump, effectOf i s = .done write jump := by
  cases i with
  | dat a b => exact absurd trivial h
  | mov a b =>
    obtain ⟨ha, hb⟩ := not_or.1 h
    obtain ⟨va, ha⟩ := exists_valueOf s (not_not.1 ha)
    obtain ⟨db, hb⟩ := exists_addrOf s (not_not.1 hb)
    exact ⟨_, _, by rw [effectOf_mov, ha, hb]⟩
  | add a b =>
    obtain ⟨ha, hb⟩ := not_or.1 h
    obtain ⟨va, ha⟩ := exists_valueOf s (not_not.1 ha)
    obtain ⟨db, hdb⟩ := exists_addrOf s (not_not.1 hb)
    obtain ⟨vb, hvb⟩ := exists_valueOf s (hasValue_of_hasAddr (not_not.1 hb))
    exact ⟨_, _, by rw [effectOf_add, ha, hvb, hdb]⟩
  | sub a b =>
    obtain ⟨ha, hb⟩ := not_or.1 h
    obtain ⟨va, ha⟩ := exists_valueOf s (not_not.1 ha)
    obtain ⟨db, hdb⟩ := exists_addrOf s (not_not.1 hb)
    obtain ⟨vb, hvb⟩ := exists_valueOf s (hasValue_of_hasAddr (not_not.1 hb))
    exact ⟨_, _, by rw [effectOf_sub, ha, hvb, hdb]⟩
  | jmp a b =>
    obtain ⟨db, hb⟩ := exists_addrOf s (not_not.1 h)
    exact ⟨_, _, by rw [effectOf_jmp, hb]⟩
  | jmz a b =>
    obtain ⟨ha, hb⟩ := not_or.1 h
    obtain ⟨va, ha⟩ := exists_valueOf s (not_not.1 ha)
    obtain ⟨db, hb⟩ := exists_addrOf s (not_not.1 hb)
    exact ⟨_, _, effectOf_jmz_some ha hb⟩
  | djz a b =>
    obtain ⟨ha, hb⟩ := not_or.1 h
    obtain ⟨da, ha⟩ := exists_addrOf s (not_not.1 ha)
    obtain ⟨db, hb⟩ := exists_addrOf s (not_not.1 hb)
    exact ⟨_, _, effectOf_djz_some ha hb⟩
  | cmp a b =>
    obtain ⟨ha, hb⟩ := not_or.1 h
    obtain ⟨va, ha⟩ := exists_valueOf s (not_not.1 ha)
    obtain ⟨vb, hb⟩ := exists_valueOf s (not_not.1 hb)
    exact ⟨_, _, effectOf_cmp_some ha hb⟩
  | illegal op a b => exact absurd trivial h

theorem effectOf_violation_iff (i : Instr) (s : State) :
    effectOf i s = .violation ↔ ViolatesByMode i := by
  refine ⟨fun he => ?_, effectOf_of_violatesByMode s⟩
  by_contra hn
  obtain ⟨write, jump, hd⟩ := effectOf_of_not_violatesByMode s hn
  simp [hd] at he

/-- From a state without a violation, a tick sets the flag exactly where the table says. -/
theorem step_violated_iff {s t : State} (hr : s.Ready) (hv : s.violated = false)
    (h : step s = .next t) : t.violated = true ↔ ViolatesByMode s.fetchInstr := by
  rw [← effectOf_violation_iff _ s]
  obtain ⟨he, hV⟩ | ⟨write, jump, he, hF, -, -⟩ := step_tick_cases hr hv h
  · exact iff_of_true hV.violated he
  · exact iff_of_false (by simp [hF.violated, hv]) (by simp [he])

/-! ### The cause -/

/-- The operand's mode does not give the required result (`40_tick_and_operands.md` R89). -/
def Required.MissingBy (f : Fields) : Required → Prop
  | .a => ¬f.a.HasValue
  | .addrA => ¬f.a.HasAddr
  | .b => ¬f.b.HasValue
  | .addrB => ¬f.b.HasAddr

/-- What a tick resolved to `None` depends on the modes alone. -/
theorem isMissing_latch_iff (s : State) (f : Fields) (r : Required) :
    isMissing (s.latch f) r = true ↔ r.MissingBy f := by
  have hvalue (o : Operand) : (s.valueOf o).isNone = true ↔ ¬o.HasValue := by
    rw [← valueOf_isSome_iff s, Option.isNone_iff_eq_none, Option.not_isSome_iff_eq_none]
  have haddr (o : Operand) : (s.addrOf o).isNone = true ↔ ¬o.HasAddr := by
    rw [← addrOf_isSome_iff s, Option.isNone_iff_eq_none, Option.not_isSome_iff_eq_none]
  cases r with
  | a => exact hvalue f.a
  | addrA => exact haddr f.a
  | b => exact hvalue f.b
  | addrB => exact haddr f.b

/-- For opcodes 1 to 7 a cause is a required result that is missing (`60_exceptions.md` R152). -/
theorem exists_violationCause_iff {t : LastTick} (h0 : t.ins.opcode.toNat ≠ 0)
    (h7 : t.ins.opcode.toNat ≤ 7) :
    (∃ c, violationCause t = some c) ↔ ∃ r ∈ requiredOf t.ins.opcode, isMissing t r = true := by
  rw [violationCause, if_neg h0, if_neg (by omega)]
  simp only [← List.mem_filter]
  cases (requiredOf t.ins.opcode).filter (isMissing t) with
  | nil => simp
  | cons r rs => exact iff_of_true ⟨_, rfl⟩ ⟨r, List.mem_cons_self⟩

theorem exists_violationCause_latch_iff (s : State) {op : Opcode} {a b : Operand} {rs : List Required}
    (h0 : op.toNat ≠ 0) (h7 : op.toNat ≤ 7) (hrs : requiredOf op = rs) :
    (∃ c, violationCause (s.latch ⟨op, a, b⟩) = some c) ↔ ∃ r ∈ rs, r.MissingBy ⟨op, a, b⟩ := by
  simp only [exists_violationCause_iff (t := s.latch ⟨op, a, b⟩) h0 h7, latch_ins,
    isMissing_latch_iff, hrs]

theorem exists_missing_one (f : Fields) (r : Required) : (∃ x ∈ [r], x.MissingBy f) ↔ r.MissingBy f := by
  simp

theorem exists_missing_two (f : Fields) (r q : Required) :
    (∃ x ∈ [r, q], x.MissingBy f) ↔ r.MissingBy f ∨ q.MissingBy f := by
  simp

/-- Where the address of B is required, requiring its value too adds no cause. -/
theorem exists_missing_value_and_addr (f : Fields) :
    (∃ x ∈ [Required.a, .b, .addrB], x.MissingBy f) ↔ ¬f.a.HasValue ∨ ¬f.b.HasAddr := by
  have hb : ¬f.b.HasValue ∨ ¬f.b.HasAddr ↔ ¬f.b.HasAddr :=
    or_iff_right_of_imp (mt hasValue_of_hasAddr)
  rw [List.exists_mem_cons_iff, exists_missing_two]
  exact or_congr_right hb

/-- The record of an instruction's tick yields a cause exactly where the instruction violates. -/
theorem exists_violationCause_iff_violatesByMode {i : Instr} (hi : i.WellFormed) (s : State) :
    (∃ c, violationCause (s.latch (instrFields i)) = some c) ↔ ViolatesByMode i := by
  have hcause {op a b rs} := exists_violationCause_latch_iff s (op := op) (a := a) (b := b) (rs := rs)
  cases i with
  | dat a b => exact iff_of_true ⟨.vDat, rfl⟩ trivial
  | mov a b => exact (hcause (by decide) (by decide) rfl).trans (exists_missing_two _ .a .addrB)
  | add a b => exact (hcause (by decide) (by decide) rfl).trans (exists_missing_value_and_addr _)
  | sub a b => exact (hcause (by decide) (by decide) rfl).trans (exists_missing_value_and_addr _)
  | jmp a b => exact (hcause (by decide) (by decide) rfl).trans (exists_missing_one _ .addrB)
  | jmz a b => exact (hcause (by decide) (by decide) rfl).trans (exists_missing_two _ .a .addrB)
  | djz a b => exact (hcause (by decide) (by decide) rfl).trans (exists_missing_two _ .addrA .addrB)
  | cmp a b => exact (hcause (by decide) (by decide) rfl).trans (exists_missing_two _ .a .b)
  | illegal op a b =>
    have hop := wellFormed_illegal_iff.1 hi
    refine iff_of_true ⟨.vOpcode, ?_⟩ trivial
    rw [violationCause, latch_ins, instrFields, if_neg (by simp; omega), if_pos (by simp; omega)]

/-! ### The pointers -/

/-- A handler that sets the pointer is `cmp`'s skip or a jump to B's address
(`43_jmp_jmz_djz_cmp.md` R130 to R133). -/
theorem effectOf_jump_cases {i : Instr} {s : State} {d : Nat} {write : Option (Nat × Word)}
    (h : effectOf i s = .done write (some d)) :
    (d = incr s.coreLen (s.ip s.turn) 2 ∧ ∃ a b, i = .cmp a b) ∨
    ∃ a b, s.addrOf b = some d ∧ (i = .jmp a b ∨ i = .jmz a b ∨ i = .djz a b) := by
  cases i with
  | dat a b => simp [effectOf_dat] at h
  | mov a b => rw [effectOf_mov] at h; split at h <;> simp at h
  | add a b => rw [effectOf_add] at h; split at h <;> simp at h
  | sub a b => rw [effectOf_sub] at h; split at h <;> simp at h
  | jmp a b => exact .inr ⟨a, b, by rw [effectOf_jmp] at h; split at h <;> simp_all, .inl rfl⟩
  | jmz a b =>
    exact .inr ⟨a, b, by rw [effectOf_jmz] at h; split at h <;> simp_all, .inr (.inl rfl)⟩
  | djz a b =>
    exact .inr ⟨a, b, by rw [effectOf_djz] at h; split at h <;> simp_all, .inr (.inr rfl)⟩
  | cmp a b => exact .inl ⟨by rw [effectOf_cmp] at h; split at h <;> simp_all, a, b, rfl⟩
  | illegal op a b => simp [effectOf_illegal] at h

/-- Every pointer a completed handler leaves is a value of `Fold`. -/
theorem effectOf_pointer_lt_4096 {i : Instr} {s : State} {write : Option (Nat × Word)}
    {jump : Option Nat} (h : effectOf i s = .done write jump) :
    jump.getD (incr s.coreLen (s.ip s.turn) 1) < 4096 := by
  cases jump with
  | none => exact fold_lt_4096 _ _
  | some d =>
    obtain ⟨o, ho⟩ | hd := effectOf_jump_addr h
    · exact addrOf_lt_4096 ho
    · exact hd ▸ fold_lt_4096 _ _

theorem violates_ip {s t : State} {f : Fields} (h : Violates s t f) (p : ProgramId) : t.ip p = s.ip p := by
  cases p with
  | A => exact h.ipA
  | B => exact h.ipB

/-! ### The write -/

theorem onWriteEvent_of_ready {s : State} (hr : s.Ready) : onWriteEvent s = writeTarget s.fetchInstr s := by
  obtain ⟨hp, he, -⟩ := hr
  simp [onWriteEvent, hp, he]

theorem onWriteEvent_of_done {s : State} {write : Option (Nat × Word)} {jump : Option Nat}
    (hr : s.Ready) (h : effectOf s.fetchInstr s = .done write jump) :
    onWriteEvent s = write.map Prod.fst :=
  (onWriteEvent_of_ready hr).trans (writeTarget_of_done h)

/-- A tick leaves every cell alone that it emits no write event for. -/
theorem step_read_of_ne_event {s t : State} {addr : Nat} (hr : s.Ready) (hv : s.violated = false)
    (h : step s = .next t) (hne : onWriteEvent s ≠ some addr) :
    t.mem.read addr = s.mem.read addr := by
  obtain ⟨-, hV⟩ | ⟨write, jump, he, -, hmem, -⟩ := step_tick_cases hr hv h
  · rw [hV.mem, beginPlay_mem]
  · rw [onWriteEvent_of_done hr he] at hne
    cases write with
    | none => rw [hmem, applyWrite_none_mem]
    | some dx =>
      have haddr : addr ≠ dx.1 := by simpa using hne.symm
      rw [hmem, applyWrite_some_mem, Memory.read_write_other _ _ haddr]

/-- A tick with a write event completes, and writes what its instruction writes. -/
theorem step_of_event {s t : State} {d : Nat} (hr : s.Ready) (hv : s.violated = false)
    (hd : onWriteEvent s = some d) (h : step s = .next t) :
    TickFrame s.beginPlay t (instrFields s.fetchInstr) ∧
      ∃ x, WritesWord s d x ∧ t.mem.read d = x := by
  obtain ⟨x, jump, heff⟩ := onWriteEvent_eq_some hd
  obtain ⟨he, -⟩ | ⟨write, jump', he, hF, hmem, -⟩ := step_tick_cases hr hv h
  · simp [heff] at he
  · obtain ⟨rfl, rfl⟩ : some (d, x) = write ∧ jump = jump' := by simpa [heff] using he
    refine ⟨hF, x, writesWord_of_effectOf heff, ?_⟩
    rw [hmem, applyWrite_some_mem, Memory.read_write_same]

/-- Which instructions write, and where. -/
theorem writesWord_target {s : State} {d : Nat} {x : Word} (h : WritesWord s d x) :
    ∃ a b, ((s.fetchInstr = .mov a b ∨ s.fetchInstr = .add a b ∨ s.fetchInstr = .sub a b) ∧
      s.addrOf b = some d) ∨ (s.fetchInstr = .djz a b ∧ s.addrOf a = some d) := by
  cases h with
  | mov a b hi ha hb => exact ⟨a, b, .inl ⟨.inl hi, hb⟩⟩
  | add a b va vb hi ha hb hdb hx => exact ⟨a, b, .inl ⟨.inr (.inl hi), hdb⟩⟩
  | sub a b va vb hi ha hb hdb hx => exact ⟨a, b, .inl ⟨.inr (.inr hi), hdb⟩⟩
  | djz a b hi ha hb hx => exact ⟨a, b, .inr ⟨hi, ha⟩⟩

/-- A write event is at an operand's address. -/
theorem onWriteEvent_addr {s : State} {d : Nat} (h : onWriteEvent s = some d) :
    ∃ o, s.addrOf o = some d := by
  obtain ⟨x, jump, heff⟩ := onWriteEvent_eq_some h
  exact effectOf_write_addr heff

theorem beginPlay_of_started {s : State} (h : s.started = true) : s.beginPlay = s := by
  cases s
  subst h
  rfl

/-- After a tick that completed, a pointer in the core is all the next tick needs. -/
theorem ready_of_tickFrame {s t : State} {f : Fields} (hr : s.Ready) (hF : TickFrame s.beginPlay t f)
    (hip : t.activeIp < s.coreLen) : t.Ready := by
  obtain ⟨hp, he, -⟩ := hr
  refine ⟨?_, hF.ended.trans he, hF.coreLen ▸ hip⟩
  rw [State.pointersSet, hF.ipASet, hF.ipBSet]
  exact hp

/-! ### What a tick does not read -/

/-- A handler looks at the state's memory and core length and at nothing else of it. -/
theorem handlerOf_congr (i : Instr) (r : LastTick) {s t : State} (hm : t.mem = s.mem)
    (hL : t.coreLen = s.coreLen) : handlerOf i t r = handlerOf i s r := by
  cases i with
  | djz a b => simp only [handlerOf, djzHandler, hm]
  | cmp a b => simp only [handlerOf, cmpHandler, hL]
  | _ => rfl

section
variable (s : State) (p : ProgramId) (addr : Nat)

theorem setIp_other_ip : (s.setIp (other p) addr).ip p = s.ip p := by cases p <;> rfl

theorem setIp_other_latch (f : Fields) : (s.setIp (other s.turn) addr).latch f = s.latch f := by
  simp only [State.latch, setIp_turn, setIp_mem, setIp_coreLen, setIp_other_ip]

theorem setIp_other_effectOf (i : Instr) :
    effectOf i (s.setIp (other s.turn) addr) = effectOf i s := by
  rw [effectOf, setIp_other_latch, handlerOf_congr i _ (setIp_mem ..) (setIp_coreLen ..), effectOf]

theorem setIp_fetchInstr : (s.setIp (other s.turn) addr).fetchInstr = s.fetchInstr := by
  rw [State.fetchInstr, State.fetchWord, State.activeIp, setIp_turn, setIp_other_ip, setIp_mem]
  rfl

theorem setIp_ready : (s.setIp (other s.turn) addr).Ready ↔ s.Ready := by
  simp only [State.Ready, State.pointersSet, State.activeIp, setIp_ipASet, setIp_ipBSet, setIp_ended,
    setIp_turn, setIp_other_ip, setIp_coreLen]

/-! Each operation of a tick of `p` commutes with setting the other program's pointer. -/

theorem beginPlay_setIp : (s.setIp p addr).beginPlay = s.beginPlay.setIp p addr := by cases p <;> rfl

theorem setLast_setIp (t : LastTick) : (s.setIp p addr).setLast t = (s.setLast t).setIp p addr := by
  cases p <;> rfl

theorem flipTurn_setIp (q : ProgramId) : (s.setIp p addr).flipTurn q = (s.flipTurn q).setIp p addr := by
  cases p <;> rfl

theorem endBattle_setIp (q : ProgramId) :
    (s.setIp p addr).endBattle q = (s.endBattle q).setIp p addr := by
  cases p <;> rfl

theorem takeViolation_setIp (q : ProgramId) :
    (s.setIp p addr).takeViolation q = (s.takeViolation q).setIp p addr := by
  cases p <;> rfl

theorem applyWrite_setIp (write : Option (Nat × Word)) :
    (s.setIp p addr).applyWrite write = (s.applyWrite write).setIp p addr := by
  cases p <;> cases write <;> rfl

theorem applyJump_setIp_other (jump : Option Nat) :
    (s.setIp (other p) addr).applyJump p jump = (s.applyJump p jump).setIp (other p) addr := by
  cases p <;> cases jump <;> rfl

theorem advance_setIp_other (ip0 : Nat) (jump : Option Nat) :
    (s.setIp (other p) addr).advance p ip0 jump = (s.advance p ip0 jump).setIp (other p) addr := by
  cases p <;> cases jump <;> rfl

theorem finishDone_setIp_other (t : LastTick) (write : Option (Nat × Word)) (jump : Option Nat) :
    (s.setIp (other t.p) addr).finishDone t write jump =
      (s.finishDone t write jump).setIp (other t.p) addr := by
  simp only [State.finishDone, applyWrite_setIp, applyJump_setIp_other, setIp_violated]
  split
  · rw [endBattle_setIp, flipTurn_setIp]
  · rw [advance_setIp_other, flipTurn_setIp]

theorem finishTick_setIp_other (t : LastTick) (r : HandlerResult) :
    (s.setIp (other t.p) addr).finishTick t r = (s.finishTick t r).setIp (other t.p) addr := by
  simp only [State.finishTick, setLast_setIp]
  cases r with
  | violation => exact takeViolation_setIp ..
  | done write jump => exact finishDone_setIp_other ..

/-- An instruction of the active program carries the other program's pointer along unread. -/
theorem exec_setIp_other {t : State} {i : Instr} (h : exec i s = .next t) :
    exec i (s.setIp (other s.turn) addr) = .next (t.setIp (other s.turn) addr) := by
  rw [exec_eq] at h ⊢
  obtain rfl := (by simpa using h.symm : t = _)
  rw [setIp_other_latch, setIp_other_effectOf]
  exact congrArg _ (finishTick_setIp_other s addr (s.latch (instrFields i)) _)

/-- `last` is overwritten by every tick before anything else happens (`40_tick_and_operands.md` R83). -/
theorem exec_last_irrelevant (i : Instr) (x : Option LastTick) : exec i { s with last := x } = exec i s := by
  have heff : effectOf i { s with last := x } = effectOf i s := handlerOf_congr i _ rfl rfl
  rw [exec_eq, exec_eq, heff]
  rfl

end

/-! ### The statements -/

/-- Settles O36: the tick's operations leave the other pointer alone and commute with setting it. -/
theorem inactivePointerUntouched : Obligations.InactivePointerUntouched := by
  intro s t hr h
  rw [step_of_ready hr] at h
  obtain ⟨-, -, hip, -⟩ := exec_common h
  refine ⟨hip, fun addr => ?_⟩
  rw [step_of_ready ((setIp_ready s addr).2 hr), setIp_fetchInstr, beginPlay_setIp]
  exact exec_setIp_other s.beginPlay addr h

/-- Settles O37: the two outcomes of a tick, with the handler's own pointer by `effectOf_jump_cases`. -/
theorem activePointerChanges : Obligations.ActivePointerChanges := by
  intro s t hr hv h
  obtain ⟨-, hV⟩ | ⟨write, jump, he, hF, -, hip⟩ := step_tick_cases hr hv h
  · exact .inl ⟨hV.violated, violates_ip hV s.turn⟩
  have htv : t.violated = false := hF.violated.trans hv
  cases jump with
  | none => exact .inr (.inl ⟨htv, hip⟩)
  | some d =>
    obtain ⟨rfl, hcmp⟩ | ⟨a, b, hd, hi⟩ := effectOf_jump_cases he
    · exact .inr (.inr (.inl ⟨htv, hip, hcmp⟩))
    · exact .inr (.inr (.inr ⟨htv, a, b, d, hd, hip, hi⟩))

/-- Settles O38: the frame by `step_read_of_ne_event`, the cell by the four ways of `WritesWord`. -/
theorem tickWritesOnlyItsTarget : Obligations.TickWritesOnlyItsTarget := by
  refine fun s t hr hv h => ⟨fun _ => step_read_of_ne_event hr hv h, fun d hd => ?_⟩
  obtain ⟨hF, x, hw, -⟩ := step_of_event hr hv hd h
  exact ⟨hF.violated.trans hv, writesWord_target hw⟩

/-- Settles O40: the violation and its cause each depend on the opcode and the modes alone. -/
theorem violationCausesComplete : Obligations.ViolationCausesComplete := by
  intro s t hr hv h
  have hiff := step_violated_iff hr hv h
  have hcause := exists_violationCause_iff_violatesByMode (decode_wellFormed s.fetchWord) s
  rw [instrFields_decode] at hcause
  refine ⟨hiff, hiff.trans (hcause.symm.trans ?_)⟩
  simp [step_last hr h]

/-- Settles O42: the fetch does not look at `last`, and the tick overwrites it. -/
theorem lastIsNeverRead : Obligations.LastIsNeverRead := by
  intro s x hr
  rw [step_of_ready hr, step_of_ready (s := { s with last := x }) hr]
  exact exec_last_irrelevant s.beginPlay s.fetchInstr x

/-- Settles O44: the write by `step_of_event`; the completed tick leaves a state that may take the next. -/
theorem nextFetchSeesTheWrite : Obligations.NextFetchSeesTheWrite := by
  intro s t d hr hv hd h
  obtain ⟨hF, x, hw, hx⟩ := step_of_event hr hv hd h
  refine ⟨x, hw, hx, fun hip => ?_⟩
  have hfetch : t.fetchWord = x := by rw [State.fetchWord, hip, hx]
  have hlt : d < s.coreLen := by
    obtain ⟨o, ho⟩ := onWriteEvent_addr hd
    obtain ⟨-, -, hactive⟩ := hr
    exact operandAddr_lt (Nat.zero_lt_of_lt hactive) ho
  have hready : t.Ready := ready_of_tickFrame hr hF (hip ▸ hlt)
  rw [step_of_ready hready, beginPlay_of_started hF.started, State.fetchInstr, hfetch]
  exact ⟨rfl, rfl⟩

/-- Settles O46: `Fold` answers nothing above 4095, whatever the core length. -/
theorem highCellsAreNeverReached : Obligations.HighCellsAreNeverReached := by
  intro s t _ hr hv h
  refine ⟨fun _ _ => addrOf_lt_4096, fun htv => ?_, fun addr haddr => ?_⟩
  · obtain ⟨-, hV⟩ | ⟨write, jump, he, -, -, hip⟩ := step_tick_cases hr hv h
    · simp [hV.violated] at htv
    · exact hip ▸ effectOf_pointer_lt_4096 he
  · refine step_read_of_ne_event hr hv h fun hd => ?_
    obtain ⟨o, ho⟩ := onWriteEvent_addr hd
    exact absurd (addrOf_lt_4096 ho) (by omega)

/-- Settles O14: the table of R89 by mode. -/
theorem resolverAvailability : Obligations.ResolverAvailability := by
  refine fun s o => ⟨valueOf_isSome_iff s o, addrOf_isSome_iff s o, fun d => operandValue_of_addr,
    fun hm => ⟨_, valueOf_immediate hm, fieldWord_lt o.field⟩⟩

end Sys2Proof.Machine
end

section
/-! PROOFS. The interface (`10_state.md` sections 9 to 11): which commands are refused, what the loader's
commands change, and the invariant at reset. -/

namespace Sys2Proof.Machine

/-! ### The loader's commands -/

section
variable {s : State} {addr : Nat}

theorem loadWrite_of_started (h : s.started = true) (w : Word) :
    runCommand (.loadWrite addr w) s = .refused .loadAfterStart := if_pos h

theorem loadSetIP_of_started (h : s.started = true) (p : ProgramId) :
    runCommand (.loadSetIP p addr) s = .refused .loadAfterStart := if_pos h

theorem loadWrite_outside (h : s.started = false) (ha : s.coreLen ≤ addr) (w : Word) :
    runCommand (.loadWrite addr w) s = .refused (.addressOutsideCore addr) := by
  simp [runCommand, cmdLoadWrite, h, ha]

theorem loadSetIP_outside (h : s.started = false) (ha : s.coreLen ≤ addr) (p : ProgramId) :
    runCommand (.loadSetIP p addr) s = .refused (.addressOutsideCore addr) := by
  simp [runCommand, cmdLoadSetIP, h, ha]

theorem loadWrite_inside (h : s.started = false) (ha : addr < s.coreLen) (w : Word) :
    runCommand (.loadWrite addr w) s = .next (s.writeCell addr w) := by
  simp [runCommand, cmdLoadWrite, h, ha]

theorem loadSetIP_inside (h : s.started = false) (ha : addr < s.coreLen) (p : ProgramId) :
    runCommand (.loadSetIP p addr) s = .next (s.loadIp p addr) := by
  simp [runCommand, cmdLoadSetIP, h, ha]

end

theorem writeCell_oneCellWritten (s : State) (addr : Nat) (w : Word) :
    OneCellWritten s (s.writeCell addr w) addr w :=
  oneCellWritten_of_mem rfl

/-- A tick marks that play has begun. -/
theorem step_started {s t : State} (hr : s.Ready) (h : step s = .next t) : t.started = true := by
  rw [step_of_ready hr] at h
  obtain ⟨-, -, -, -, -, -, hstarted⟩ := exec_common h
  exact hstarted

theorem pointersSet_eq_false {s : State} (h : s.ipASet = false ∨ s.ipBSet = false) :
    s.pointersSet = false := by
  rw [State.pointersSet, Bool.and_eq_false_iff]
  exact h

/-- A fresh core: both pointers are 0, no mark is set, and no cell is listed. -/
theorem resetOf_inv {L : Nat} (hL : 0 < L) : (State.resetOf L).Inv :=
  ⟨⟨hL, hL, hL⟩, ⟨rfl, rfl⟩, Memory.wf_nil, Memory.inCore_nil L⟩

/-! ### The statements -/

/-- Settles O26: what a word decodes to is well formed, and `step` executes it once play has begun. -/
theorem stepRunsTheDecodedInstruction : Obligations.StepRunsTheDecodedInstruction := by
  rintro s i hr rfl
  exact ⟨decode_wellFormed _, step_of_ready hr⟩

/-- Settles O28: each misuse meets the first test of its command that it fails. -/
theorem interfaceMisuseIsRefused : Obligations.InterfaceMisuseIsRefused :=
  ⟨fun _ he hp => step_of_pointers_not_set he (pointersSet_eq_false hp), fun _ _ => step_started,
    fun _ _ w p h => ⟨loadWrite_of_started h w, loadSetIP_of_started h p⟩,
    fun _ _ w p h ha => ⟨loadWrite_outside h ha w, loadSetIP_outside h ha p⟩⟩

/-- Settles O29: before play both commands pass their tests inside the core. -/
theorem loaderCommandsWriteOneElement : Obligations.LoaderCommandsWriteOneElement := by
  refine fun s addr h ha => ⟨fun w => ?_, fun p => ?_⟩
  · exact ⟨_, loadWrite_inside h ha w, writeCell_oneCellWritten s addr w, rfl⟩
  · refine ⟨_, loadSetIP_inside h ha p, loadIp_ip_same s p addr, loadIp_ip_other s p addr, ?_, ?_⟩
    · rintro rfl
      rfl
    · rintro rfl
      rfl

/-- Settles O31: `resetOf_inv`, at every length and at the model's own. -/
theorem resetMeetsTheInvariant : Obligations.ResetMeetsTheInvariant :=
  ⟨fun _ => resetOf_inv, resetOf_inv (by decide)⟩

end Sys2Proof.Machine
end

section
/-! PROOFS. `Fold` and the arithmetic law (`20_memory.md` section 5, `42_mov_add_sub.md` R118): the first
modulus as a period of 4096, the seam it makes where the core length does not divide it, and the low 12 bits
of a word. -/

namespace Sys2Proof.Machine

/-! ### The period of 4096 -/

/-- Only the class of the sum modulo 4096 counts. -/
theorem fold_congr {L : Nat} {x y : Int} (h : x % 4096 = y % 4096) : fold L x = fold L y := by
  rw [fold, h, fold]

theorem fold_add_4096 (L : Nat) (x : Int) : fold L (x + 4096) = fold L x :=
  fold_congr (Int.add_emod_right x 4096)

/-- The field `4096 - k` is the displacement `-k` before the second modulus. -/
theorem fold_backward (L : Nat) (x k : Int) : fold L (x + (4096 - k)) = fold L (x - k) := by
  rw [← fold_add_4096 L (x - k)]
  congr 1
  ring

theorem fold_natCast_of_lt {L n : Nat} (h : n < 4096) : fold L (n : Int) = n % L := by
  rw [fold_natCast, Nat.mod_eq_of_lt h]

/-- `Fold` leaves an address of the core below 4096 alone. -/
theorem fold_natCast_eq_self {L n : Nat} (h : n < 4096) (hL : n < L) : fold L (n : Int) = n := by
  rw [fold_natCast_of_lt h, Nat.mod_eq_of_lt hL]

/-- Only the low 12 bits of a summand count (`20_memory.md` R44(e)). -/
theorem fold_add_emod (L : Nat) (x y : Int) : fold L (x + y) = fold L (x + y % 4096) :=
  fold_congr (by omega)

/-! ### The seam -/

/-- Past 4096 the two moduli give another cell than the second alone, unless the core length divides
4096 (`20_memory.md` section 5 (c)). -/
theorem mod_ne_of_not_dvd {L x : Nat} (hdvd : ¬L ∣ 4096) (hx : 4096 ≤ x) : (x - 4096) % L ≠ x % L := by
  intro h
  have hzero : (x - (x - 4096)) % L = 0 := Nat.sub_mod_eq_zero_of_mod_eq h.symm
  rw [Nat.sub_sub_self hx] at hzero
  exact hdvd (Nat.dvd_of_mod_eq_zero hzero)

/-- A displacement that crosses address 0 comes back 4096 cells on, not `L`. -/
theorem emod_ne_of_not_dvd {L : Nat} (hdvd : ¬L ∣ 4096) (x : Int) :
    (x + 4096) % (L : Int) ≠ x % (L : Int) := by
  intro h
  have hzero : (x + 4096 - x) % (L : Int) = 0 := Int.emod_eq_emod_iff_emod_sub_eq_zero.1 h
  rw [add_sub_cancel_left] at hzero
  exact hdvd (by exact_mod_cast Int.dvd_of_emod_eq_zero hzero)

/-! ### The advance -/

theorem incr_natCast_of_ge {L : Nat} (hL : 4096 ≤ L) (ip0 n : Nat) :
    incr L ip0 (n : Int) = (ip0 + n) % 4096 := by
  have hmod : (ip0 + n) % 4096 < 4096 := Nat.mod_lt _ (by decide)
  rw [incr_natCast, Nat.mod_eq_of_lt (hmod.trans_le hL)]

/-- Before the last cell a first advance by 1 does not wrap. -/
theorem incr_one_of_lt {L ip0 : Nat} (hL : L ≤ 4096) (h : ip0 + 1 < L) : incr L ip0 1 = ip0 + 1 :=
  fold_natCast_eq_self (n := ip0 + 1) (by omega) h

theorem incr_one_one_of_lt {L ip0 : Nat} (hL : L ≤ 4096) (h : ip0 + 1 < L) :
    incr L (incr L ip0 1) 1 = incr L ip0 2 := by
  rw [incr_one_of_lt hL h]
  exact (incr_natCast L (ip0 + 1) 1).trans (incr_natCast L ip0 2).symm

/-! ### The low 12 bits -/

theorem extractLsb'_low_toNat (a : Word) : (a.extractLsb' 0 12).toNat = a.toNat % 4096 := by
  rw [BitVec.extractLsb'_toNat, Nat.shiftRight_zero]

/-- Indirect's second displacement counts by its low 12 bits (`40_tick_and_operands.md` R87). -/
theorem indirectAddr_eq_low (m : Memory) (L ip0 : Nat) (f : Field) :
    indirectAddr m L ip0 f = fold L ((relativeAddr L ip0 f : Int) +
      (((m.read (relativeAddr L ip0 f)).extractLsb' 0 12).toNat : Int)) := by
  rw [extractLsb'_low_toNat, indirectAddr, fold_add_emod]
  rfl

/-! ### The statements -/

/-- Settles O8: a divisor of 4096 makes the first modulus invisible. -/
theorem foldUniformRing : Obligations.FoldUniformRing := by
  refine fun L _ hdvd => ⟨fun x => ?_, fun x k _ => fold_backward L x k⟩
  rw [fold_intCast, Int.emod_emod_of_dvd x (by exact_mod_cast hdvd)]

/-- Settles O9: below 4096 only the second modulus acts, from there to 8191 the first subtracts 4096, and
each seam by the 4096 that `L` does not divide. -/
theorem foldSeam : Obligations.FoldSeam := by
  intro L hL hmax hdvd
  refine ⟨fun x => fold_natCast_of_lt, fun x hlo hhi => ?_,
    fun ip0 k hip hk hk' => ⟨fun h => ?_, fun h => ?_⟩⟩
  · have hx : fold L (x : Int) = (x - 4096) % L := by
      rw [fold_natCast, show x % 4096 = x - 4096 by omega]
    rw [hx]
    exact ⟨rfl, mod_ne_of_not_dvd hdvd hlo⟩
  · rw [fold_backward, ← Nat.cast_sub h]
    exact fold_natCast_eq_self (by omega) (by omega)
  · have hsum : (ip0 : Int) + (4096 - (k : Int)) = ((ip0 + 4096 - k : Nat) : Int) := by omega
    have hfold : fold L ((ip0 : Int) + (4096 - (k : Int))) = (ip0 + 4096 - k) % L := by
      rw [hsum, fold_natCast_of_lt (by omega)]
    refine ⟨hfold, ?_⟩
    rw [hfold, Int.natCast_emod, ← hsum, show (ip0 : Int) + (4096 - k) = ip0 - k + 4096 by ring]
    exact emod_ne_of_not_dvd hdvd _

/-- Settles O10: the sum's class modulo 4096 by `fold_congr`; a folded address is left alone. -/
theorem foldLowTwelveBits : Obligations.FoldLowTwelveBits := by
  refine fun L x y hL => ⟨fold_congr (Int.add_emod x y 4096), ?_⟩
  exact fold_natCast_eq_self (fold_lt_4096 L x) (fold_lt hL x)

/-- Settles O12: cores of 4096 cells or more have the first modulus alone, and below that only the last
cell wraps. -/
theorem skipIsTwoAdvances : Obligations.SkipIsTwoAdvances := by
  intro L ip0 hip
  by_cases hL : 4096 ≤ L
  · have h1 (x : Nat) : incr L x 1 = (x + 1) % 4096 := incr_natCast_of_ge hL x 1
    have h2 : incr L ip0 2 = (ip0 + 2) % 4096 := incr_natCast_of_ge hL ip0 2
    rw [h1, h1, h2]
    omega
  by_cases hlast : ip0 + 1 < L
  · exact iff_of_true (incr_one_one_of_lt (by omega) hlast) (by omega)
  obtain rfl : ip0 = L - 1 := by omega
  rw [incr_last_one (by omega) (by omega)]
  obtain rfl | rfl | ⟨hlo, hhi⟩ : L = 1 ∨ L = 4095 ∨ 2 ≤ L ∧ L ≤ 4094 := by omega
  · decide
  · decide
  · have hzero : incr L 0 1 = 1 := incr_one_of_lt (by omega) (by omega)
    rw [incr_last_two hlo hhi, hzero]
    exact iff_of_true rfl (by omega)

/-- Settles O15: only the pointer's low 12 bits count, and those are the decoded field B. -/
theorem indirectUsesFieldB : Obligations.IndirectUsesFieldB :=
  fun m L ip0 f => ⟨congrArg some (indirectAddr_eq_low m L ip0 f),
    congrArg some (indirectAddr_eq_low m L ip0 f)⟩

/-- Settles O16: the results as numbers, each operand reduced first. -/
theorem arithmeticLaw : Obligations.ArithmeticLaw := by
  intro a b
  have hadd := addMod_toNat a b
  have hsub := subMod_toNat a b
  have hdec := decMod_toNat a
  rw [extractLsb'_low_toNat, extractLsb'_low_toNat]
  refine ⟨?_, ?_, ?_, ?_, ?_, ?_, ?_, isZero_iff a, differ_iff a b⟩
  all_goals omega

end Sys2Proof.Machine
end

section
/-! PROOFS. The canonical memory: a list in canonical form is determined by what it reads. -/

namespace Sys2Proof.Machine

/-- A canonical list holds exactly the cells that read other than the fill, each with what it reads. -/
theorem Memory.mem_iff_read {m : Memory} (h : m.wf) (c : CoreCell) :
    c ∈ m ↔ m.read c.1 = c.2 ∧ c.2 ≠ Config.coreFill := by
  induction m with
  | nil => exact iff_of_false List.not_mem_nil fun ⟨hr, hne⟩ => hne hr.symm
  | cons d m ih =>
    obtain ⟨hsorted, hfill⟩ := h
    obtain ⟨hhead, hsorted⟩ := List.pairwise_cons.1 hsorted
    obtain ⟨hd, hfill⟩ := List.forall_mem_cons.1 hfill
    rw [List.mem_cons, Memory.read_cons]
    split
    case isTrue heq =>
      have hout : c ∉ m := fun hc => absurd (hhead c hc) (by omega)
      rw [or_iff_left hout, Prod.ext_iff]
      exact ⟨fun ⟨_, hx⟩ => ⟨hx.symm, hx ▸ hd⟩, fun ⟨hx, _⟩ => ⟨heq, hx.symm⟩⟩
    case isFalse hne =>
      have hout : c ≠ d := fun hc => hne (congrArg Prod.fst hc)
      rw [or_iff_right hout]
      exact ih ⟨hsorted, hfill⟩

theorem Memory.nodup_of_wf {m : Memory} (h : m.wf) : m.Nodup := by
  obtain ⟨hsorted, -⟩ := h
  exact hsorted.imp fun hlt heq => absurd hlt (by simp [heq])

/-- Two lists in rising address order with the same cells are the same. -/
theorem Memory.eq_of_read_eq {m n : Memory} (hm : m.wf) (hn : n.wf)
    (h : ∀ addr, m.read addr = n.read addr) : m = n := by
  have hperm : m.Perm n := by
    refine (List.perm_ext_iff_of_nodup (Memory.nodup_of_wf hm) (Memory.nodup_of_wf hn)).2 fun c => ?_
    rw [Memory.mem_iff_read hm, Memory.mem_iff_read hn, h]
  obtain ⟨hsm, -⟩ := hm
  obtain ⟨hsn, -⟩ := hn
  exact hperm.eq_of_pairwise (fun _ _ _ _ hlt hgt => absurd hlt hgt.not_gt) hsm hsn

/-- Settles O47: what a canonical memory reads fixes its cells, and their order is rising. -/
theorem canonicalMemoryIsUnique : Obligations.CanonicalMemoryIsUnique :=
  fun _ _ => Memory.eq_of_read_eq

end Sys2Proof.Machine
end

section
/-! PROOFS. The loader (`70_reset_and_hazards.md` R181 to R187): that placed words stand in their cells, that
the two regions never meet, what a launch state holds, and when a load fails. -/

namespace Sys2Proof.Machine

/-! ### Regions modulo the core length -/

/-- Two positions less than a core apart are different cells. -/
theorem mod_ne_of_lt {L x y : Nat} (hlt : x < y) (hL : y < x + L) : x % L ≠ y % L := by
  intro h
  have hzero : (y - x) % L = 0 := Nat.sub_mod_eq_zero_of_mod_eq h.symm
  rw [Nat.mod_eq_of_lt (by omega)] at hzero
  omega

/-- A cell of B's region, counted on from A's base (`70_reset_and_hazards.md` R184). -/
theorem baseB_add_mod (L baseA lenA r j : Nat) :
    (baseB L baseA lenA r + j) % L = (baseA + lenA + r + j) % L := by
  rw [baseB, Nat.mod_add_mod]

theorem regions_disjoint {L lenA lenB baseA r i j : Nat} (hr : r < L - lenA - lenB) (hi : i < lenA)
    (hj : j < lenB) : (baseA + i) % L ≠ (baseB L baseA lenA r + j) % L := by
  rw [baseB_add_mod]
  exact mod_ne_of_lt (by omega) (by omega)

/-! ### Placing words -/

theorem placeWords_coreLen (s : State) (base : Nat) (ws : List Word) :
    (s.placeWords base ws).coreLen = s.coreLen := by
  rw [placeWords_fields]

/-- Words that fit into the core stand where they were placed. -/
theorem placeWords_read_inside {ws : List Word} {base i : Nat} {s : State} {w : Word}
    (hlen : ws.length ≤ s.coreLen) (hw : ws[i]? = some w) :
    (s.placeWords base ws).mem.read ((base + i) % s.coreLen) = w := by
  induction ws generalizing base i s with
  | nil => simp at hw
  | cons v ws ih =>
    simp only [List.length_cons] at hlen
    cases i with
    | zero =>
      obtain rfl : v = w := by simpa using hw
      rw [State.placeWords, placeWords_read_outside, Nat.add_zero]
      · exact Memory.read_write_same _ _ _
      · intro j hj
        exact mod_ne_of_lt (by omega) (by omega)
    | succ i =>
      have htail : ws[i]? = some w := by simpa using hw
      rw [State.placeWords, show base + (i + 1) = base + 1 + i by omega]
      exact ih (s := s.writeCell (base % s.coreLen) v) (by simp only [writeCell_coreLen]; omega) htail

theorem writeCell_memoryOk {s : State} {addr : Nat} (h : s.MemoryOk) (ha : addr < s.coreLen) (w : Word) :
    (s.writeCell addr w).MemoryOk :=
  applyWrite_memoryOk (write := some (addr, w)) h fun _ _ hw => by cases hw; exact ha

theorem placeWords_memoryOk {s : State} (hL : 0 < s.coreLen) (h : s.MemoryOk) (base : Nat)
    (ws : List Word) : (s.placeWords base ws).MemoryOk := by
  induction ws generalizing base s with
  | nil => exact h
  | cons w ws ih => exact ih (s := s.writeCell _ w) hL (writeCell_memoryOk h (Nat.mod_lt _ hL) w) _

/-- The loader's check of a word is the one bit that marks an illegal opcode. -/
theorem loadable_iff (w : Word) : loadable w = true ↔ (decodeFields w).opcode.toNat ≤ 7 :=
  decide_eq_true_iff

theorem placeWords_noIllegalCell {s : State} {ws : List Word} (h : s.NoIllegalCell)
    (hws : ∀ w ∈ ws, loadable w = true) (base : Nat) : (s.placeWords base ws).NoIllegalCell := by
  induction ws generalizing base s with
  | nil => exact h
  | cons w ws ih =>
    obtain ⟨hw, hws⟩ := List.forall_mem_cons.1 hws
    refine ih (s := s.writeCell _ w) (noIllegalCell_write h rfl ?_) hws _
    exact (getLsbD_31_eq_false_iff w).2 ((loadable_iff w).1 hw)

theorem resetOf_noIllegalCell (L : Nat) : (State.resetOf L).NoIllegalCell :=
  fun _ => (by decide : Config.coreFill.getLsbD 31 = false)

/-! ### The launch state -/

/-- A fresh core with both programs in it, before the pointers are set. -/
def placedCore (L : Nat) (A B : Warrior) (baseA r : Nat) : State :=
  ((State.resetOf L).placeWords baseA A.words).placeWords (baseB L baseA A.words.length r) B.words

theorem placedCore_eq (L : Nat) (A B : Warrior) (baseA r : Nat) :
    placedCore L A B baseA r = { State.resetOf L with mem := (placedCore L A B baseA r).mem } :=
  (placeWords_fields B.words _ _).trans
    (congrArg (fun u : State => { u with mem := (placedCore L A B baseA r).mem })
      (placeWords_fields A.words baseA (State.resetOf L)))

/-- The launch state, field by field. -/
theorem launch_eq (L : Nat) (A B : Warrior) (baseA r : Nat) :
    launch L A B baseA r =
      { State.resetOf L with
        mem := (placedCore L A B baseA r).mem
        ipA := (baseA + A.offset) % L
        ipB := (baseB L baseA A.words.length r + B.offset) % L
        ipASet := true
        ipBSet := true } := by
  change ((placedCore L A B baseA r).loadIp .A ((baseA + A.offset) % L)).loadIp .B
    ((baseB L baseA A.words.length r + B.offset) % L) = _
  rw [placedCore_eq]
  rfl

section
variable {L : Nat} {A B : Warrior} {baseA r : Nat}

theorem placedCore_memoryOk (hL : 0 < L) : (placedCore L A B baseA r).MemoryOk := by
  obtain ⟨-, -, hm⟩ := resetOf_inv hL
  have hA := placeWords_memoryOk (s := State.resetOf L) hL hm baseA A.words
  refine placeWords_memoryOk ?_ hA _ _
  rw [placeWords_coreLen]
  exact hL

theorem placedCore_noIllegalCell (h : ∀ w ∈ A.words ++ B.words, loadable w = true) :
    (placedCore L A B baseA r).NoIllegalCell := by
  obtain ⟨hA, hB⟩ := List.forall_mem_append.1 h
  exact placeWords_noIllegalCell (placeWords_noIllegalCell (resetOf_noIllegalCell L) hA _) hB _

/-- A's words stand where they were placed, because B's were placed elsewhere. -/
theorem placedCore_read_A {i : Nat} {w : Word} (hfit : A.words.length + B.words.length < L)
    (hr : r < L - A.words.length - B.words.length) (hw : A.words[i]? = some w) :
    (placedCore L A B baseA r).mem.read ((baseA + i) % L) = w := by
  obtain ⟨hi, -⟩ := List.getElem?_eq_some_iff.1 hw
  rw [placedCore, placeWords_read_outside]
  · exact placeWords_read_inside (s := State.resetOf L) (show A.words.length ≤ L by omega) hw
  · intro j hj
    rw [placeWords_coreLen]
    exact regions_disjoint hr hi hj

theorem placedCore_read_B {j : Nat} {w : Word} (hfit : A.words.length + B.words.length < L)
    (hw : B.words[j]? = some w) :
    (placedCore L A B baseA r).mem.read ((baseB L baseA A.words.length r + j) % L) = w := by
  have hL : ((State.resetOf L).placeWords baseA A.words).coreLen = L := placeWords_coreLen ..
  have hread := placeWords_read_inside (s := (State.resetOf L).placeWords baseA A.words)
    (base := baseB L baseA A.words.length r) (by omega) hw
  rwa [hL] at hread

theorem placedCore_read_outside {addr : Nat}
    (hA : ∀ i, i < A.words.length → addr ≠ (baseA + i) % L)
    (hB : ∀ j, j < B.words.length → addr ≠ (baseB L baseA A.words.length r + j) % L) :
    (placedCore L A B baseA r).mem.read addr = Config.coreFill := by
  rw [placedCore, placeWords_read_outside, placeWords_read_outside _ _ _ _ hA]
  · rfl
  · intro j hj
    rw [placeWords_coreLen]
    exact hB j hj

theorem launch_launch (hL : 0 < L) : (launch L A B baseA r).Launch := by
  rw [launch_eq]
  refine ⟨⟨⟨hL, Nat.mod_lt _ hL, Nat.mod_lt _ hL⟩, ⟨rfl, rfl⟩, ?_⟩, rfl, rfl, rfl, rfl, rfl⟩
  have hm : (placedCore L A B baseA r).MemoryOk := placedCore_memoryOk hL
  rw [placedCore_eq] at hm
  exact hm

/-! ### The outcomes of a load -/

/-- With the capacity respected, a load's outcome is the validation's, then the draws'. -/
theorem load_of_fits (hfit : A.words.length + B.words.length < L) :
    load L A B baseA r =
      (validatePrograms A B).elim
        (if baseA < L ∧ r < L - A.words.length - B.words.length then .ok (launch L A B baseA r)
          else .error .notADraw) .error := by
  rw [load, if_neg (by omega)]
  cases validatePrograms A B <;> rfl

theorem load_of_valid (hfit : A.words.length + B.words.length < L)
    (hvalid : ∀ w ∈ A.words ++ B.words, loadable w = true) (hbase : baseA < L)
    (hr : r < L - A.words.length - B.words.length) :
    load L A B baseA r = .ok (launch L A B baseA r) := by
  rw [load_of_fits hfit, (validatePrograms_eq_none A B).2 hvalid]
  exact if_pos ⟨hbase, hr⟩

/-- A load that succeeds passed every test and answers the launch state. -/
theorem of_load_eq_ok {s : State} (h : load L A B baseA r = .ok s) :
    A.words.length + B.words.length < L ∧ (∀ w ∈ A.words ++ B.words, loadable w = true) ∧
      r < L - A.words.length - B.words.length ∧ s = launch L A B baseA r := by
  by_cases hfit : A.words.length + B.words.length < L
  · rw [load_of_fits hfit] at h
    cases hv : validatePrograms A B with
    | some e => simp [hv] at h
    | none =>
      rw [hv, Option.elim_none] at h
      split at h
      case isTrue hdraw =>
        exact ⟨hfit, (validatePrograms_eq_none A B).1 hv, hdraw.2, by simpa using h.symm⟩
      case isFalse => simp at h
  · rw [load, if_pos (by omega)] at h
    cases h

/-- The words the validation names are those the loader rejects first, A's before B's. -/
theorem validatePrograms_cases (A B : Warrior) :
    (∃ i w, firstUnloadable 0 A.words = some (i, w) ∧
      validatePrograms A B = some (.invalidInstruction .A i w)) ∨
    (∃ i w, firstUnloadable 0 A.words = none ∧ firstUnloadable 0 B.words = some (i, w) ∧
      validatePrograms A B = some (.invalidInstruction .B i w)) ∨
    (firstUnloadable 0 A.words = none ∧ firstUnloadable 0 B.words = none ∧
      validatePrograms A B = none) := by
  unfold validatePrograms
  cases firstUnloadable 0 A.words with
  | some c => exact .inl ⟨c.1, c.2, rfl, rfl⟩
  | none =>
    cases firstUnloadable 0 B.words with
    | some c => exact .inr (.inl ⟨c.1, c.2, rfl, rfl, rfl⟩)
    | none => exact .inr (.inr ⟨rfl, rfl, rfl⟩)

theorem firstUnloadable_iff (ws : List Word) (i : Nat) (w : Word) :
    firstUnloadable 0 ws = some (i, w) ↔ FirstIllegalWord ws i w := by
  have h := firstUnloadable_eq_some ws 0 i w
  rw [Nat.zero_add] at h
  simp only [h, loadable_eq_false_iff, loadable_iff]

theorem validatePrograms_eq_A (i : Nat) (w : Word) :
    validatePrograms A B = some (.invalidInstruction .A i w) ↔ FirstIllegalWord A.words i w := by
  rw [← firstUnloadable_iff]
  obtain ⟨j, v, hA, hval⟩ | ⟨j, v, hA, -, hval⟩ | ⟨hA, -, hval⟩ := validatePrograms_cases A B <;>
    simp [hA, hval]

theorem validatePrograms_eq_B (i : Nat) (w : Word) :
    validatePrograms A B = some (.invalidInstruction .B i w) ↔
      (∀ v, v ∈ A.words → (decodeFields v).opcode.toNat ≤ 7) ∧ FirstIllegalWord B.words i w := by
  simp only [← loadable_iff]
  rw [← firstUnloadable_iff, ← firstUnloadable_eq_none A.words 0]
  obtain ⟨j, v, hA, hval⟩ | ⟨j, v, hA, hB, hval⟩ | ⟨hA, hB, hval⟩ := validatePrograms_cases A B
  · simp [hA, hval]
  · simp [hA, hB, hval]
  · simp [hA, hB, hval]

/-- A load that fits names an offending word exactly as the validation does. -/
theorem load_invalid_iff (hfit : A.words.length + B.words.length < L) (p : ProgramId) (i : Nat)
    (w : Word) : load L A B baseA r = .error (.invalidInstruction p i w) ↔
      validatePrograms A B = some (.invalidInstruction p i w) := by
  rw [load_of_fits hfit]
  cases validatePrograms A B with
  | some e => simp
  | none =>
    rw [Option.elim_none]
    split <;> simp

theorem exists_validatePrograms_iff :
    (∃ p i w, validatePrograms A B = some (.invalidInstruction p i w)) ↔
      ∃ w, w ∈ A.words ++ B.words ∧ 8 ≤ (decodeFields w).opcode.toNat := by
  have hnone : validatePrograms A B ≠ none ↔
      ∃ w, w ∈ A.words ++ B.words ∧ 8 ≤ (decodeFields w).opcode.toNat := by
    simp only [ne_eq, validatePrograms_eq_none, ← loadable_eq_false_iff, not_forall,
      Bool.not_eq_true, exists_prop]
  rw [← hnone]
  obtain ⟨i, w, -, hval⟩ | ⟨i, w, -, -, hval⟩ | ⟨-, -, hval⟩ := validatePrograms_cases A B
  · exact iff_of_true ⟨_, _, _, hval⟩ (by simp [hval])
  · exact iff_of_true ⟨_, _, _, hval⟩ (by simp [hval])
  · exact iff_of_false (by simp [hval]) (by simp [hval])

theorem load_capacity_iff :
    load L A B baseA r = .error .capacity ↔ L ≤ A.words.length + B.words.length := by
  by_cases hfit : A.words.length + B.words.length < L
  · refine iff_of_false ?_ (by omega)
    rw [load_of_fits hfit]
    obtain ⟨i, w, -, hval⟩ | ⟨i, w, -, -, hval⟩ | ⟨-, -, hval⟩ := validatePrograms_cases A B
    · simp [hval]
    · simp [hval]
    · rw [hval, Option.elim_none]
      split <;> simp
  · exact iff_of_true (if_pos (by omega)) (by omega)

end

/-! ### The statements -/

/-- Settles O49: counted on from A's base, the two positions are less than a core apart. -/
theorem loadedRegionsNeverMeet : Obligations.LoadedRegionsNeverMeet :=
  fun _ _ _ _ _ _ _ _ hr hi hj => regions_disjoint hr hi hj

/-- Settles O50: the launch state field by field, its memory by the placed words. -/
theorem loadMakesTheLaunchState : Obligations.LoadMakesTheLaunchState := by
  intro L A B baseA r s h
  obtain ⟨hfit, hvalid, hr, rfl⟩ := of_load_eq_ok h
  have hmem : (launch L A B baseA r).mem = (placedCore L A B baseA r).mem := by rw [launch_eq]
  refine ⟨launch_launch (by omega), ?_, ?_, ?_, ?_, ?_, ?_, ?_, ?_⟩
  · rw [launch_eq]; rfl
  · rw [launch_eq]; rfl
  · exact fun addr => hmem ▸ placedCore_noIllegalCell hvalid addr
  · exact fun i w hw => hmem ▸ placedCore_read_A hfit hr hw
  · exact fun j w hw => hmem ▸ placedCore_read_B hfit hw
  · exact fun addr hA hB => hmem ▸ placedCore_read_outside hA hB
  · rw [launch_eq]; rfl
  · rw [launch_eq]; rfl

/-- Settles O51: the outcomes of a load are those of the capacity test and of the validation, in order. -/
theorem loadFailures : Obligations.LoadFailures := by
  refine fun L A B baseA r => ⟨load_capacity_iff, fun hfit => ⟨?_, fun i w => ⟨?_, ?_⟩, ?_⟩⟩
  · simp only [load_invalid_iff hfit, exists_validatePrograms_iff]
  · exact (load_invalid_iff hfit _ _ _).trans (validatePrograms_eq_A i w)
  · exact (load_invalid_iff hfit _ _ _).trans (validatePrograms_eq_B i w)
  · intro hws hbase hr
    exact ⟨_, load_of_valid hfit (fun w hw => (loadable_iff w).2 (hws w hw)) hbase hr⟩

end Sys2Proof.Machine
end

section
/-! PROOFS. The assembler (`30_encoding.md` section 6): what an operand token answers, that `Encode` accepts
whatever the grammar gives it, and that the words and the entry offset of a program are fit for the loader. -/

namespace Sys2Proof.Machine

/-! ### Operand tokens -/

/-- A literal within the range folds to its class modulo 4096 (`30_encoding.md` R67). -/
theorem foldLiteral_eq_emod {i : Int} (hlo : -4096 < i) (hhi : i < 4096) : foldLiteral i = i % 4096 := by
  unfold foldLiteral
  split <;> omega

theorem foldLiteral_range {i : Int} (hlo : -4096 < i) (hhi : i < 4096) :
    0 ≤ foldLiteral i ∧ foldLiteral i ≤ 4095 := by
  rw [foldLiteral_eq_emod hlo hhi]
  omega

section
variable {line : Nat} {tok : List Char} {i : Int}

theorem parseOperand_of_in_range (h : parseInt (splitPrefix tok).2 = some i) (hlo : -4096 < i)
    (hhi : i < 4096) : parseOperand line tok = .ok ((splitPrefix tok).1, foldLiteral i) := by
  rw [parseOperand, h]
  exact if_pos ⟨hlo, hhi⟩

theorem parseOperand_of_out_of_range (h : parseInt (splitPrefix tok).2 = some i)
    (hi : i ≤ -4096 ∨ 4096 ≤ i) : parseOperand line tok = .error (.range line) := by
  rw [parseOperand, h]
  exact if_neg (by omega)

theorem parseOperand_range_iff (h : parseInt (splitPrefix tok).2 = some i) :
    parseOperand line tok = .error (.range line) ↔ i ≤ -4096 ∨ 4096 ≤ i := by
  refine ⟨fun he => ?_, parseOperand_of_out_of_range h⟩
  by_contra hi
  rw [parseOperand_of_in_range h (by omega) (by omega)] at he
  cases he

end

/-- The mode code of a token is Immediate's, Relative's or Indirect's (`30_encoding.md` R66). -/
theorem splitPrefix_mode (tok : List Char) : 0 ≤ (splitPrefix tok).1 ∧ (splitPrefix tok).1 ≤ 2 := by
  unfold splitPrefix
  split <;> simp

/-- No literal begins with a mode mark, so the whole of one is a Relative operand's number. -/
theorem splitPrefix_of_literal {digits : List Char} {i : Int} (h : parseInt digits = some i) :
    splitPrefix digits = (1, digits) := by
  unfold splitPrefix
  split
  · cases h
  · cases h
  · rfl

/-! ### What the assembler may answer -/

/-- An answer that is no failure of `Encode`, and whose result, where there is one, satisfies `P`. -/
def NoEncodingError {α : Type} (P : α → Prop) (r : Except AsmError α) : Prop :=
  (∀ line, r ≠ .error (.encoding line)) ∧ ∀ x, r = .ok x → P x

section
variable {α β : Type} {P : α → Prop} {Q : β → Prop}

theorem noEncodingError_ok {x : α} (h : P x) : NoEncodingError P (.ok x) :=
  ⟨fun _ => nofun, fun _ hx => Except.ok.inj hx ▸ h⟩

theorem noEncodingError_error {e : AsmError} (h : ∀ line, e ≠ .encoding line) :
    NoEncodingError P (.error e) :=
  ⟨fun line he => h line (Except.error.inj he), fun _ => nofun⟩

theorem noEncodingError_map {r : Except AsmError α} {f : α → β} (h : NoEncodingError P r)
    (hf : ∀ x, P x → Q (f x)) : NoEncodingError Q (r.map f) := by
  obtain ⟨herr, hok⟩ := h
  cases r with
  | error e => exact noEncodingError_error fun line he => herr line (by rw [he])
  | ok x => exact noEncodingError_ok (hf x (hok x rfl))

end

/-- A word that `IsValid` and the loader accept. -/
def Loads (w : Word) : Prop := isValid (decodeFields w) = true ∧ loadable w = true

/-- A mode code and a field as an operand token may answer them. -/
def OperandCode (o : Int × Int) : Prop := (0 ≤ o.1 ∧ o.1 ≤ 2) ∧ 0 ≤ o.2 ∧ o.2 ≤ 4095

theorem parseOperand_spec (line : Nat) (tok : List Char) :
    NoEncodingError OperandCode (parseOperand line tok) := by
  cases h : parseInt (splitPrefix tok).2 with
  | none =>
    rw [parseOperand, h]
    exact noEncodingError_error fun _ => nofun
  | some i =>
    by_cases hi : -4096 < i ∧ i < 4096
    · obtain ⟨hlo, hhi⟩ := hi
      rw [parseOperand_of_in_range h hlo hhi]
      exact noEncodingError_ok ⟨splitPrefix_mode tok, foldLiteral_range hlo hhi⟩
    · rw [parseOperand_of_out_of_range h (by omega)]
      exact noEncodingError_error fun _ => nofun

theorem opcodeOne_range {tok : List Char} {op : Int} (h : opcodeOne tok = some op) : 0 ≤ op ∧ op ≤ 7 := by
  unfold opcodeOne at h
  split_ifs at h <;> (obtain rfl := Option.some.inj h; decide)

theorem opcodeTwo_range {tok : List Char} {op : Int} (h : opcodeTwo tok = some op) : 0 ≤ op ∧ op ≤ 7 := by
  unfold opcodeTwo at h
  split_ifs at h <;> (obtain rfl := Option.some.inj h; decide)

/-- The codes an operand token can have are not mode 3. -/
theorem modeOfBits_ofInt_ne_invalid {m : Int} (h : 0 ≤ m ∧ m ≤ 2) :
    modeOfBits (BitVec.ofInt 2 m) ≠ .invalid := by
  obtain ⟨h0, h2⟩ := h
  interval_cases m <;> decide

/-- `Encode` accepts what the grammar gives it (`30_encoding.md` R67), and the word loads. -/
theorem encodeLine_spec (line : Nat) {op : Int} {a b : Int × Int} (hop : 0 ≤ op ∧ op ≤ 7)
    (ha : OperandCode a) (hb : OperandCode b) :
    NoEncodingError Loads (encodeLine line op a.1 a.2 b.1 b.2) := by
  obtain ⟨hma, hfa⟩ := ha
  obtain ⟨hmb, hfb⟩ := hb
  have hle : (BitVec.ofInt 4 op).toNat ≤ 7 := by
    have := ofInt_toNat_of_lt (n := 4) hop.1 (by omega)
    omega
  rw [encodeLine, encodeArgs_eq_layout hop ⟨hma.1, by omega⟩ hfa ⟨hmb.1, by omega⟩ hfb]
  refine noEncodingError_ok ⟨?_, ?_⟩
  · rw [decodeFields_layout, isValid_iff]
    exact ⟨hle, modeOfBits_ofInt_ne_invalid hma, modeOfBits_ofInt_ne_invalid hmb⟩
  · rw [loadable_iff, decodeFields_layout]
    exact hle

theorem assembleOne_spec (line : Nat) {op : Int} (hop : 0 ≤ op ∧ op ≤ 7) (argB : List Char) :
    NoEncodingError Loads (assembleOne line op argB) := by
  obtain ⟨herr, hok⟩ := parseOperand_spec line argB
  unfold assembleOne
  split
  case h_1 e he => exact noEncodingError_error fun k hk => herr k (hk ▸ he)
  case h_2 b hb => exact encodeLine_spec line (a := (0, 0)) hop ⟨by decide, by decide⟩ (hok b hb)

theorem assembleTwo_spec (line : Nat) {op : Int} (hop : 0 ≤ op ∧ op ≤ 7) (argA argB : List Char) :
    NoEncodingError Loads (assembleTwo line op argA argB) := by
  obtain ⟨herrA, hokA⟩ := parseOperand_spec line argA
  obtain ⟨herrB, hokB⟩ := parseOperand_spec line argB
  unfold assembleTwo
  split
  case h_1 e he => exact noEncodingError_error fun k hk => herrA k (hk ▸ he)
  case h_2 a e ha he => exact noEncodingError_error fun k hk => herrB k (hk ▸ he)
  case h_3 a b ha hb => exact encodeLine_spec line hop (hokA a ha) (hokB b hb)

/-- What a line contributes is loadable, if it is a word. -/
def LineItem.WordLoads (item : LineItem) : Prop := ∀ w, item = .word w → Loads w

theorem wordLoads_of_loads (w : Word) (h : Loads w) : (LineItem.word w).WordLoads :=
  fun _ hv => LineItem.word.inj hv ▸ h

theorem assembleLine_spec (line : Nat) (text : List Char) :
    NoEncodingError LineItem.WordLoads (assembleLine line text) := by
  have hmalformed : NoEncodingError LineItem.WordLoads (.error (.malformed line)) :=
    noEncodingError_error fun _ => nofun
  unfold assembleLine
  split
  · exact noEncodingError_ok fun _ => nofun
  · exact noEncodingError_ok fun _ => nofun
  split
  · split
    · exact noEncodingError_ok fun _ => nofun
    · exact hmalformed
  split
  case h_1 op _ hop =>
    split
    · exact noEncodingError_map (assembleOne_spec line (opcodeOne_range hop) _) wordLoads_of_loads
    · exact hmalformed
  case h_2 op _ hop =>
    split
    · exact noEncodingError_map (assembleTwo_spec line (opcodeTwo_range hop) _ _) wordLoads_of_loads
    · exact hmalformed
  case h_3 => exact noEncodingError_error fun _ => nofun

/-- A program fit for the loader: its entry offset is at most its length, and its words load. -/
def FitForLoader (p : Warrior) : Prop := p.offset ≤ p.words.length ∧ ∀ w ∈ p.words, Loads w

theorem assembleLines_spec (lines : List (List Char)) (line : Nat) {sofar : List Word} {offset : Nat}
    (h : FitForLoader ⟨offset, sofar⟩) :
    NoEncodingError FitForLoader (assembleLines line sofar offset lines) := by
  induction lines generalizing line sofar offset with
  | nil => exact noEncodingError_ok h
  | cons text rest ih =>
    obtain ⟨hoffset, hwords⟩ := h
    obtain ⟨herr, hok⟩ := assembleLine_spec line text
    unfold assembleLines
    split
    case h_1 e he => exact noEncodingError_error fun k hk => herr k (hk ▸ he)
    case h_2 => exact ih _ ⟨hoffset, hwords⟩
    case h_3 => exact ih _ ⟨le_rfl, hwords⟩
    case h_4 w hw =>
      refine ih _ ⟨?_, List.forall_mem_append.2 ⟨hwords, List.forall_mem_singleton.2 (hok _ hw w rfl)⟩⟩
      exact hoffset.trans (by simp)

/-! ### The statements -/

/-- Settles O52: the range test decides between the folded field and the error; the mark in front sets
the mode. -/
theorem literalsFold : Obligations.LiteralsFold := by
  refine ⟨fun i hlo hhi => ?_, fun line tok i => parseOperand_range_iff, fun line digits i h hlo hhi => ?_⟩
  · obtain ⟨h0, hmax⟩ := foldLiteral_range hlo hhi
    exact ⟨h0, hmax, foldLiteral_eq_emod hlo hhi⟩
  · have hsplit := splitPrefix_of_literal h
    refine ⟨parseOperand_of_in_range (tok := '#' :: digits) h hlo hhi, ?_,
      parseOperand_of_in_range (tok := '@' :: digits) h hlo hhi⟩
    rw [parseOperand_of_in_range (by rw [hsplit]; exact h) hlo hhi, hsplit]

/-- Settles O53: the empty program is fit, and every line keeps the program so far fit. -/
theorem assembledProgramsAreLoadable : Obligations.AssembledProgramsAreLoadable :=
  fun text => assembleLines_spec (splitLines text) 1 ⟨le_rfl, List.forall_mem_nil _⟩

end Sys2Proof.Machine
end

section
/-! PROOFS. The observer (`10_state.md` section 9, `30_encoding.md` section 7): its outputs as reads of the
state, and the display of a field. -/

namespace Sys2Proof.Machine

theorem memorySnapshot_length (s : State) : (memorySnapshot s).length = s.coreLen := by
  simp [memorySnapshot]

theorem memorySnapshot_getElem? {s : State} {addr : Nat} (h : addr < s.coreLen) :
    (memorySnapshot s)[addr]? = some (s.mem.read addr) := by
  simp [memorySnapshot, List.getElem?_range h]

/-- The eight mnemonics in the order of their opcodes (`30_encoding.md` R56). -/
theorem mnemonicOf_eq (op : Opcode) :
    mnemonicOf op = ["dat", "mov", "add", "sub", "jmp", "jmz", "djz", "cmp"][op.toNat]? := by
  revert op
  decide

theorem lastDecodedInstruction_eq_none_iff (s : State) :
    lastDecodedInstruction s = none ↔ s.last = none := Option.map_eq_none_iff

theorem lastDecodedInstruction_of_last {s : State} {t : LastTick} (h : s.last = some t) :
    lastDecodedInstruction s = some (disassemble t.ins) := by
  rw [lastDecodedInstruction, h, Option.map_some]

theorem displayField_of_lt {f : Field} (h : f.toNat < 3968) : displayField f = (f.toNat : Int) :=
  if_neg (by omega)

theorem displayField_of_ge {f : Field} (h : 3968 ≤ f.toNat) : displayField f = (f.toNat : Int) - 4096 :=
  if_pos h

/-- Settles O48: each output is a read of the state, the disassembly by opcode and displayed field. -/
theorem observerOutputs : Obligations.ObserverOutputs := by
  refine ⟨fun s => ⟨memorySnapshot_length s, fun _ => memorySnapshot_getElem?, rfl, rfl, rfl⟩,
    fun s => ⟨lastDecodedInstruction_eq_none_iff s, fun t h => ?_⟩,
    fun f => ⟨displayField_of_lt, displayField_of_ge⟩⟩
  exact ⟨_, lastDecodedInstruction_of_last h, mnemonicOf_eq t.ins.opcode, rfl, rfl, rfl, rfl⟩

end Sys2Proof.Machine
end
